-- ==== Sys2Proof/Word.lean ====
section
/-! DEFINITION. The word types of the block: a 32-bit host word (R55), a byte of the model's buffer store, and a bit
sequence (R17). -/

namespace Sys2Proof

/-- A 32-bit host word, register value or command word (R30, R55, R70). -/
abbrev Word := BitVec 32

/-- One byte of the model's store for IBUF (eight sequence bits, the first one most significant; log entry 7). -/
abbrev Byte := BitVec 8

/-- A bit sequence: element 0 is the first bit in time (R17). -/
abbrev Bits := List Bool

end Sys2Proof
end

