-- ==== Sys2Proof/Config.lean ====
section
/-! DEFINITION. What an implementation fixes: the parameters of R12, with the bounds R12 puts on them, the constant
K_TURBO, and the one free value of the model. -/

namespace Sys2Proof

/-- IL_COLLIDE of R12: what the interleaver does at a positive multiple of 7 (R172). -/
inductive Collide where
  | zeroFillLastWins
  | fault
deriving DecidableEq, Repr

/-- The parameters of R12. OMAX is derived (`Params.omax`). Log entry 1 says why `State` carries them. -/
structure Params where
  kmax : Nat
  nmax : Nat
  lmax : Nat
  mw : Nat
  ilCollide : Collide
deriving DecidableEq, Repr

namespace Params

/-- OMAX, the capacity of OBUF in bits (R12). -/
def omax (p : Params) : Nat := p.lmax * (1 + 2 * p.nmax)

/-- The default of every parameter (the column "this spec's default" of R12). -/
def standard : Params :=
  { kmax := 16, nmax := 8, lmax := 4096, mw := 13, ilCollide := .zeroFillLastWins }

/-- The constraints R12 puts on the parameters; `mw_wide` says `MW >= ceil(log2(LMAX + 1))`, for `ceil(log2 x)` the
smallest `w` with `2^w >= x` (R15). -/
structure Legal (p : Params) : Prop where
  kmax_lo : 2 ≤ p.kmax
  kmax_hi : p.kmax ≤ 31
  nmax_lo : 1 ≤ p.nmax
  nmax_hi : p.nmax ≤ 64
  lmax_lo : 1 ≤ p.lmax
  lmax_hi : p.lmax ≤ 524288
  omax_hi : p.lmax * (1 + 2 * p.nmax) ≤ 2097152
  mw_wide : p.lmax + 1 ≤ 2 ^ p.mw

end Params

namespace Config

/-- K_TURBO of R12: the constraint length of both constituent encoders of TURBO, fixed at 3 (R180). -/
def kTurbo : Nat := 3

/-- FREE VALUE (log entry 5): the byte that stands at host offset `address` of a buffer where nothing has been stored
since the buffer's contents last became unspecified; `era` numbers those occasions (R45, R67). Nothing constrains it. -/
opaque freeByte (era address : Nat) : Byte

end Config

end Sys2Proof
end

