-- ==== Sys2Proof/Machine/Agenda.lean ====
section
/-! DEFINITION. The names of the host window's words (R30, R52), the HOST's accesses (R55), the statements of a HOST
program (R77 to R80), and the turns of the two agents (R10). -/

namespace Sys2Proof.Machine

/-- A word of the host window: a register of R30 or a buffer word of R52. -/
inductive Loc where
  | cmd
  | status
  | errInfo
  | ilen
  | olen
  | cfgK
  | cfgN
  | encReg
  | parseResult
  | polyRaw (j : Nat)
  | polyMask (j : Nat)
  | ibuf (w : Nat)
  | obuf (w : Nat)
deriving DecidableEq, Repr

/-- One HOST access: `MemRead(offset, bytes)` or `MemWrite(offset, bytes, v)` (R20). The block supports `bytes = 4` only
(R55); the other widths can be asked for and are refused (R56). -/
inductive Access where
  | read (bytes offset : Nat)
  | write (bytes offset : Nat) (v : Word)
deriving DecidableEq, Repr

/-- The name of a word in a `WR` or `RD` statement: a name of the register map, or an offset (R78). -/
inductive Name where
  | loc (l : Loc)
  | offset (n : Nat)
deriving DecidableEq, Repr

/-- A command as the assembler reads it, with unbounded decimal operands (R77). -/
inductive AsmCommand where
  | parse (idx : Nat)
  | config (k n : Nat)
  | encrst
  | encode
  | decode
  | intlv
  | turbo
deriving DecidableEq, Repr

/-- A statement of a HOST program (R78 to R80). -/
inductive Stmt where
  | wr (n : Name) (v : Word)
  | rd (n : Name)
  | wait
  | command (c : AsmCommand)
  | polys (ps : List Word)
  | loadbits (bs : Bits)
  | copyout
  | readbits
deriving DecidableEq, Repr

/-- Who moves next (R10, R230; log entry 3): the CORE, one access of the HOST, one statement of the HOST's program, or
the system's reset. -/
inductive Turn where
  | core
  | access (a : Access)
  | stmt (t : Stmt)
  | reset
deriving DecidableEq, Repr

end Sys2Proof.Machine
end

