-- ==== Sys2Proof/Machine/State.lean ====
section
/-! DEFINITION. The state of the block (R30 to R49), the reasons a step can stop, and the state after reset (R49). -/

namespace Sys2Proof.Machine

/-- The store behind IBUF: host offsets and bytes, offsets strictly rising. An unlisted offset holds nothing that was ever
stored, and reads as the free value (R45; log entries 5 and 7). -/
abbrev Memory := List Host.Cell

/-- The kinds of error of R201, `UnsupportedAlgorithm` among them, which the block never raises (R200). -/
inductive ErrorKind where
  | invalidPolynomial
  | invalidConfiguration
  | invalidInputLength
  | unsupportedAlgorithm
  | illegalCommand
deriving DecidableEq, Repr

/-- The block has no fault: every command ends (R243), and an error is a completion, a next state (R205). So no step ever
answers a fault, which is safe. -/
inductive Fault where
deriving DecidableEq, Repr

/-- Why the model has no transition. Every reason but `notModelled` is a HOST access or a HOST statement that the spec
tells a model to refuse; all of them are safe. -/
inductive Refusal where
  /-- A command without a meaning yet, raised by an arm of `exec` only (none is left). Safe. -/
  | notModelled (mnemonic : String)
  /-- A HOST access of a width other than 32 bits (R56). Raised by a HOST turn. Safe. -/
  | accessWidth
  /-- A HOST access at an offset that is no multiple of 4 (R56). Raised by a HOST turn. Safe. -/
  | misaligned
  /-- A HOST access to a reserved offset (R57), or beyond the window of R50. Raised by a HOST turn. Safe. -/
  | reservedOffset
  /-- A HOST write to a read-only register or an OBUF word (R58). Raised by a HOST turn. Safe. -/
  | readOnly
  /-- A HOST read of CMD (R58). Raised by a HOST turn. Safe. -/
  | writeOnly
  /-- A HOST access other than a read of STATUS between a write of CMD and the read of STATUS with BUSY = 0 (R240).
  Raised by a HOST turn. Safe. -/
  | busyProtocol
  /-- A command the assembler refuses (R77). Raised by a HOST statement. Safe. -/
  | assemblerRefuses
  /-- POLYS with more than NMAX polynomials (R80). Raised by a HOST statement. Safe. -/
  | tooManyPolys
  /-- LOADBITS or COPYOUT with more than LMAX bits (R80). Raised by a HOST statement. Safe. -/
  | tooManyBits
deriving DecidableEq, Repr

/-- The state of the block, and beside it what the model keeps of the HOST (`hostWaits`, `hostReads`, `agenda`). -/
structure State where
  /-- The implementation's parameters (R12), which nothing changes (log entry 1). -/
  params : Params
  /-- STATUS.BUSY (R33). -/
  busy : Bool
  /-- STATUS.CFG_VALID (R34). -/
  cfgValid : Bool
  /-- STATUS.ERR (R35). -/
  err : BitVec 3
  /-- ERR_INFO (R36). -/
  errInfo : Word
  /-- ILEN (R37). -/
  ilen : Word
  /-- OLEN (R38). -/
  olen : Word
  /-- CFG_K, bits 7:0 (R39). -/
  cfgK : BitVec 8
  /-- CFG_N, bits 7:0 (R40). -/
  cfgN : BitVec 8
  /-- ENC_REG (R41). -/
  encReg : Word
  /-- PARSE_RESULT (R42). -/
  parseResult : Word
  /-- POLY_RAW[0..NMAX) (R43). -/
  polyRaw : List Word
  /-- POLY_MASK[0..NMAX) (R44). -/
  polyMask : List Word
  /-- What has been stored in IBUF since reset (R45). -/
  ibuf : Memory
  /-- The bits the last successful data command wrote to OBUF, from OBUF[0] on (R45, R67; log entry 6). -/
  obuf : Bits
  /-- TREG1 (R46). -/
  treg1 : BitVec 2
  /-- TREG2 (R46). -/
  treg2 : BitVec 2
  /-- The command word in progress: written to CMD, and not completed (R31). -/
  inFlight : Option Word
  /-- The model's own: which draw the unstored bits of IBUF come from (log entry 5). -/
  ibufEra : Nat
  /-- The model's own: which draw the unspecified bits of OBUF come from (log entry 5). -/
  obufEra : Nat
  /-- The HOST has written CMD and has not yet read STATUS with BUSY = 0 (R240). -/
  hostWaits : Bool
  /-- The values the HOST has read, the last one first (R78: "the value read is the statement's result"). -/
  hostReads : List Word
  /-- The turns still to come, the next one first (log entry 3). -/
  agenda : List Turn
deriving DecidableEq, Repr

/-- What every command and every turn answers. -/
abbrev Result := Host.Outcome State Fault Refusal

/-- The block right after reset (R49, R231), with the default parameters (R12) and no turn to come. -/
def State.reset : State :=
  { params := Params.standard
    busy := false
    cfgValid := false
    err := 0#3
    errInfo := 0#32
    ilen := 0#32
    olen := 0#32
    cfgK := 0#8
    cfgN := 0#8
    encReg := 0#32
    parseResult := 0#32
    polyRaw := List.replicate Params.standard.nmax 0#32
    polyMask := List.replicate Params.standard.nmax 0#32
    ibuf := []
    obuf := []
    treg1 := 0#2
    treg2 := 0#2
    inFlight := none
    ibufEra := 0
    obufEra := 0
    hostWaits := false
    hostReads := []
    agenda := [] }

end Sys2Proof.Machine
end

