-- ==== Sys2Proof/Machine/Bits.lean ====
section
/-! DEFINITION. Parity, Hamming distance and the shift-register step shared by the encoders and the decoder (R16 to R19,
R121 to R123, R182). Register and mask values are natural numbers here, as R15 has them. -/

namespace Sys2Proof.Machine

/-- `mask(w)`: the `w` low bits set (R16). -/
def mask (w : Nat) : Nat := 2 ^ w - 1

/-- `popcount(v)` (R18), of a value below `2^32`: every register and mask of the block is one. -/
def popcount (v : Nat) : Nat := (List.range 32).countP (fun i => v.testBit i)

/-- `parity(v) = popcount(v) mod 2` (R18). -/
def parity (v : Nat) : Bool := popcount v % 2 == 1

/-- `HD(a, b)` of two sequences of the same length (R19). -/
def hammingDistance (a b : Bits) : Nat := (List.zipWith xor a b).countP id

/-- `EncStep(reg, b)` for a register of `w = K - 1` bits (R121). -/
def encStep (w reg : Nat) (b : Bool) : Nat := ((reg <<< 1) ||| b.toNat) &&& mask w

/-- `EncOut(reg', j)` for the tap mask of polynomial `j` (R122). -/
def encOut (reg tapMask : Nat) : Bool := parity (reg &&& tapMask)

/-- The group of output bits for one register value, in polynomial order (R123). -/
def outGroup (tapMasks : List Nat) (reg : Nat) : Bits := tapMasks.map (encOut reg)

/-- The register after a bit sequence (R121). -/
def shiftIn (w reg : Nat) (bs : Bits) : Nat := bs.foldl (encStep w) reg

/-- The output of a bit sequence: one group per input bit, of the register after the step (R122, R123, R125). -/
def codeword (w : Nat) (tapMasks : List Nat) : Nat → Bits → Bits
  | _, [] => []
  | reg, b :: bs => outGroup tapMasks (encStep w reg b) ++ codeword w tapMasks (encStep w reg b) bs

end Sys2Proof.Machine
end

