-- ==== Sys2Proof/Machine/Flags.lean ====
section
/-! DEFINITION. The completion codes and the STATUS word (R32 to R35, R201). -/

namespace Sys2Proof.Machine

/-- The completion code of an error kind (R201). Code 0 is a success. -/
def ErrorKind.code : ErrorKind → BitVec 3
  | .invalidPolynomial => 1#3
  | .invalidConfiguration => 2#3
  | .invalidInputLength => 3#3
  | .unsupportedAlgorithm => 4#3
  | .illegalCommand => 7#3

/-- The STATUS word: BUSY in bit 0, CFG_VALID in bit 1, ERR in bits 6:4, every other bit 0 (R32). -/
def statusWord (s : State) : Word :=
  (s.err.setWidth 32 <<< 4) ||| ((BitVec.ofBool s.cfgValid).setWidth 32 <<< 1)
    ||| (BitVec.ofBool s.busy).setWidth 32

end Sys2Proof.Machine
end

