-- ==== Sys2Proof/Machine/Ops.lean ====
section
/-! DEFINITION. The named operations over the buffers and the registers, and the two completions of a command: the
block's "trap entry" and "return" (R205, R206). -/

namespace Sys2Proof.Machine

/-! ### The store -/

/-- The byte stored at an offset, if one is. -/
def Memory.get? : Memory → Nat → Option Byte
  | [], _ => none
  | (b, u) :: rest, a => if a = b then some u else Memory.get? rest a

/-- Store a byte, keeping the offsets strictly rising. -/
def Memory.put : Memory → Nat → Byte → Memory
  | [], a, v => [(a, v)]
  | (b, u) :: rest, a, v =>
    if a < b then (a, v) :: (b, u) :: rest
    else if a = b then (a, v) :: rest
    else (b, u) :: Memory.put rest a v

/-! ### IBUF -/

/-- The host offset of IBUF word 0 (R30, R52). -/
def ibufBase : Nat := 0x10000

/-- The host offset of OBUF word 0 (R30, R52). -/
def obufBase : Nat := 0x20000

/-- The number of words that hold `bits` bits: `ceil(bits / 32)` (R52). -/
def wordsFor (bits : Nat) : Nat := (bits + 31) / 32

/-- Which bits of the byte at host offset `a` are bits of IBUF: those below LMAX (R52). The byte at `ibufBase + k` holds
the sequence bits `8k` to `8k + 7`, the first one most significant. -/
def liveMask (p : Params) (a : Nat) : Byte := ~~~ (0xFF#8 >>> (min 8 (p.lmax - 8 * (a - ibufBase))))

/-- A byte of IBUF: what was stored there, or the free value; a bit at or above LMAX reads 0 (R45, R52, R54). -/
def ibufByte (s : State) (a : Nat) : Byte :=
  if liveMask s.params a = 0#8 then 0#8
  else
    (match s.ibuf.get? a with
      | some v => v
      | none => Config.freeByte s.ibufEra a) &&& liveMask s.params a

/-- `IBUF[i]` (R51, R52). -/
def ibufBit (s : State) (i : Nat) : Bool := (ibufByte s (ibufBase + i / 8)).getLsbD (7 - i % 8)

/-- Store a byte of IBUF; bits at or above LMAX ignore the write (R52). -/
def storeByte (p : Params) (m : Memory) (a : Nat) (v : Byte) : Memory :=
  if liveMask p a = 0#8 then m else m.put a (v &&& liveMask p a)

/-- Byte `j` of a word, byte 0 the most significant: the one that holds the word's first eight sequence bits (R52). -/
def wordByte (v : Word) (j : Nat) : Byte := v.extractLsb' (24 - 8 * j) 8

/-- Store the word `v` as IBUF word `w` (R52). -/
def storeWord (p : Params) (m : Memory) (w : Nat) (v : Word) : Memory :=
  (List.range 4).foldl (fun m j => storeByte p m (ibufBase + 4 * w + j) (wordByte v j)) m

/-- Every listed byte lies in IBUF and has 0 in its bits at or above LMAX. -/
def Memory.cellOk (p : Params) (c : Host.Cell) : Bool :=
  decide (ibufBase ≤ c.1) && decide (liveMask p c.1 ≠ 0#8) && decide (c.2 &&& liveMask p c.1 = c.2)

/-- The canonical form of the store: offsets strictly rising, and only bytes that IBUF holds. An unlisted byte of IBUF
stands for "nothing stored", so no listed byte equals it. -/
def Memory.wf (p : Params) (m : Memory) : Bool :=
  decide (m.Pairwise (fun c d => c.1 < d.1)) && m.all (Memory.cellOk p)

/-! ### OBUF -/

/-- `OBUF[i]`: what the last successful data command wrote, or, above it, the free value; a bit at or above OMAX reads 0
(R45, R52, R54, R67). -/
def obufBit (s : State) (i : Nat) : Bool :=
  if i < s.params.omax then
    match s.obuf[i]? with
    | some b => b
    | none => (Config.freeByte s.obufEra (obufBase + i / 8)).getLsbD (7 - i % 8)
  else false

/-! ### Buffer words -/

/-- The word whose bits, most significant first, are the first 32 bits of a sequence (R52). -/
def packWord (bs : Bits) : Word := (BitVec.ofBoolListBE bs).setWidth 32

/-- The 32 bits of word `w` of a buffer, in sequence order (R52). -/
def wordBits (bit : Nat → Bool) (w : Nat) : Bits := (List.range 32).map (fun k => bit (32 * w + k))

/-- IBUF word `w` as the HOST reads it (R52, R54). -/
def ibufWord (s : State) (w : Nat) : Word := packWord (wordBits (ibufBit s) w)

/-- OBUF word `w` as the HOST reads it (R52, R54). -/
def obufWord (s : State) (w : Nat) : Word := packWord (wordBits (obufBit s) w)

/-! ### Completions -/

/-- Successful completion (R206). The command in progress is over. -/
def State.succeed (s : State) : State :=
  { s with err := 0#3, errInfo := 0#32, busy := false, inFlight := none }

/-- Error completion: `raise E(info)` (R205). Nothing but ERR, ERR_INFO and BUSY changes; the command is over. -/
def State.raise (s : State) (kind : ErrorKind) (info : Word) : State :=
  { s with err := kind.code, errInfo := info, busy := false, inFlight := none }

/-- What an illegal command word does: `IllegalCommand` with `ERR_INFO <- w` (R75, R203). -/
def State.illegalCommand (s : State) (w : Word) : State := s.raise .illegalCommand w

/-- The output of a successful data command: the sequence in `OBUF[0..len)`, OLEN, and every bit of OBUF above it
unspecified anew (R38, R67, R244). -/
def State.output (s : State) (bits : Bits) (len : Nat) : State :=
  { s with obuf := bits, olen := BitVec.ofNat 32 len, obufEra := s.obufEra + 1 }

/-- Reset (R49, R230): every piece of the block's state takes its reset value, the buffers become unspecified anew, and
the HOST may write CMD again. The parameters, the turns to come and what the HOST has read stay (log entry 11). -/
def State.resetBlock (s : State) : State :=
  { State.reset with
    params := s.params
    polyRaw := List.replicate s.params.nmax 0#32
    polyMask := List.replicate s.params.nmax 0#32
    ibufEra := s.ibufEra + 1
    obufEra := s.obufEra + 1
    hostReads := s.hostReads
    agenda := s.agenda }

end Sys2Proof.Machine
end

