-- ==== Sys2Proof/Machine/Operands.lean ====
section
/-! DEFINITION. The implicit operands of the commands: the input sequence and the configuration (R37, R72), and the checks
that several data commands share (R202, R204). -/

namespace Sys2Proof.Machine

/-- `IN = IBUF[0..ILEN)` (R37). -/
def inputBits (s : State) : Bits := (List.range s.ilen.toNat).map (ibufBit s)

/-- The width of the encoder register, `K - 1` bits for `K = CFG_K` (R120). -/
def regWidth (s : State) : Nat := s.cfgK.toNat - 1

/-- The number of configured polynomials, `N = CFG_N` (R40). -/
def polyCount (s : State) : Nat := s.cfgN.toNat

/-- The configured tap masks `POLY_MASK[0..N)` in output order (R44). -/
def tapMasks (s : State) : List Nat := (s.polyMask.take (polyCount s)).map BitVec.toNat

/-- `ILEN > LMAX` (R37, R202). -/
def inputTooLong (s : State) : Bool := decide (s.params.lmax < s.ilen.toNat)

/-- ILEN is a positive multiple of 7 and IL_COLLIDE is FAULT (R172, R202). -/
def interleaverFaults (s : State) : Bool :=
  decide (s.ilen.toNat % 7 = 0) && decide (s.ilen.toNat ≠ 0) && decide (s.params.ilCollide = .fault)

end Sys2Proof.Machine
end

