-- ==== Sys2Proof/Machine/Encoder.lean ====
section
/-! DEFINITION. The convolutional encoder: ENCRST and ENCODE (R120 to R129). -/

namespace Sys2Proof.Machine

/-- ENCRST (R124). -/
def execEncrst (s : State) : Result := .next { s with encReg := 0#32 }.succeed

/-- ENCODE (R125): starts from ENC_REG and leaves the last register value there (R126). -/
def execEncode (s : State) : Result :=
  if s.cfgValid = false then .next (s.raise .invalidConfiguration 3#32)
  else if inputTooLong s then .next (s.raise .invalidInputLength s.ilen)
  else
    let bits := codeword (regWidth s) (tapMasks s) s.encReg.toNat (inputBits s)
    let reg := shiftIn (regWidth s) s.encReg.toNat (inputBits s)
    .next ({ s with encReg := BitVec.ofNat 32 reg }.output bits (s.ilen.toNat * polyCount s)).succeed

end Sys2Proof.Machine
end

