-- ==== Sys2Proof/Syntax.lean ====
section
/-! DEFINITION. The commands of the block: one constructor per row of the opcode table (R73). -/

namespace Sys2Proof

/-- A command with its operand fields (R71, R73). -/
inductive Instr where
  /-- PARSE: format I, the POLY_RAW index (R104). -/
  | parse (idx : BitVec 8)
  /-- CONFIG: format KN, the constraint length and the number of polynomials (R105). -/
  | config (k n : BitVec 8)
  /-- ENCRST: format Z (R124). -/
  | encrst
  /-- ENCODE: format Z (R125). -/
  | encode
  /-- DECODE: format Z (R152). -/
  | decode
  /-- INTLV: format Z (R171). -/
  | intlv
  /-- TURBO: format Z (R184). -/
  | turbo
deriving DecidableEq, Repr

end Sys2Proof
end

