-- ==== Sys2Proof/WellFormed.lean ====
section
/-! DEFINITION. Which command terms some command word names (R74, R75). -/

namespace Sys2Proof

/-- A command term is well formed when a word decodes to it: PARSE needs `IDX < NMAX` (R74). K and N of CONFIG are not
checked here: an out-of-range K or N is an error of CONFIG's own (R74, R106). -/
def Instr.wellFormed (p : Params) : Instr → Bool
  | .parse idx => decide (idx.toNat < p.nmax)
  | .config _ _ => true
  | .encrst => true
  | .encode => true
  | .decode => true
  | .intlv => true
  | .turbo => true

end Sys2Proof
end

