-- ==== Sys2Proof/Decode.lean ====
section
/-! DEFINITION. The decoder of the command word (R70 to R75), the encoder (R77), and the decoder in the opcode table's
bit numbering. -/

namespace Sys2Proof

/-- Why a word names no command (R75). -/
inductive DecodeError where
  /-- RSV, bits 27:24, is not 0. -/
  | reservedField
  /-- A field that the command's format does not use is not 0. -/
  | unusedField
  /-- PARSE with `IDX >= NMAX`. -/
  | polyIndex
  /-- OP is 0x0 or 0x8 to 0xF. -/
  | opcode
deriving DecidableEq, Repr

/-- OP, bits 31:28 (R71). -/
def opField (w : Word) : BitVec 4 := w.extractLsb' 28 4

/-- RSV, bits 27:24 (R71). -/
def rsvField (w : Word) : BitVec 4 := w.extractLsb' 24 4

/-- K, bits 23:16 (R71, R72). -/
def kField (w : Word) : BitVec 8 := w.extractLsb' 16 8

/-- N, bits 15:8 (R71, R72). -/
def nField (w : Word) : BitVec 8 := w.extractLsb' 8 8

/-- IDX, bits 7:0 (R71, R72). -/
def idxField (w : Word) : BitVec 8 := w.extractLsb' 0 8

/-- A command of format Z: every bit below OP must be 0 (R74). -/
def decodeZ (w : Word) (i : Instr) : Except DecodeError Instr :=
  if w.extractLsb' 0 24 ≠ 0#24 then .error .unusedField else .ok i

/-- `Decode(w)` of R74. An error is what R75 answers with IllegalCommand. -/
def decode (p : Params) (w : Word) : Except DecodeError Instr :=
  if rsvField w ≠ 0#4 then .error .reservedField
  else match (opField w).toNat with
    | 1 =>
      if w.extractLsb' 8 16 ≠ 0#16 then .error .unusedField
      else if p.nmax ≤ (idxField w).toNat then .error .polyIndex
      else .ok (.parse (idxField w))
    | 2 =>
      if idxField w ≠ 0#8 then .error .unusedField
      else .ok (.config (kField w) (nField w))
    | 3 => decodeZ w .encrst
    | 4 => decodeZ w .encode
    | 5 => decodeZ w .decode
    | 6 => decodeZ w .intlv
    | 7 => decodeZ w .turbo
    | _ => .error .opcode

/-- The word of a command (the table of R77). -/
def encode : Instr → Word
  | .parse idx => 0x10000000#32 ||| idx.setWidth 32
  | .config k n => 0x20000000#32 ||| (k.setWidth 32 <<< 16) ||| (n.setWidth 32 <<< 8)
  | .encrst => 0x30000000#32
  | .encode => 0x40000000#32
  | .decode => 0x50000000#32
  | .intlv => 0x60000000#32
  | .turbo => 0x70000000#32

/-- The decoder in the opcode table's numbering: bit 0 is the word's least significant bit and every bit at or above
`nbits` is 0. A command is one 32-bit value and no sequence of bytes (R59, R70), so no byte order enters. The parameters
are the spec's defaults (R12; log entry 1). -/
def decodeTableWord (nbits w : Nat) : Option Instr :=
  let v := w % 2 ^ nbits
  if 2 ^ 32 ≤ v then none
  else match decode Params.standard (BitVec.ofNat 32 v) with
    | .ok i => some i
    | .error _ => none

end Sys2Proof
end

