-- ==== Sys2Proof/Machine/Parser.lean ====
section
/-! DEFINITION. The polynomial parser, and the commands PARSE and CONFIG (R100 to R111). -/

namespace Sys2Proof.Machine

/-- The loop of `PolyParse` (R100, R101). A 32-bit value has at most 10 decimal digits (R102), so 10 rounds always reach
0 (log entry 12). -/
def polyParseLoop : (rounds v acc off : Nat) → Option Nat
  | 0, v, acc, _ => if v = 0 then some acc else none
  | rounds + 1, v, acc, off =>
    if v = 0 then some acc
    else if 7 < v % 10 then none
    else polyParseLoop rounds (v / 10) (acc ||| ((v % 10) <<< off)) (off + 3)

/-- `PolyParse(v)` of R100; `none` is `FAIL`. -/
def polyParse (v : Word) : Option Nat := polyParseLoop 10 v.toNat 0 0

/-- ERR_INFO of InvalidPolynomial: `j | (r << 16)` (R203), with `r` 1 for a bad digit and 2 for a mask too wide. -/
def polyErrorInfo (j r : Nat) : Word := BitVec.ofNat 32 (j ||| (r <<< 16))

/-- PARSE (R104). The decoder gives no PARSE with `IDX >= NMAX`; such a term ends as its word does (log entry 10). -/
def execParse (idx : BitVec 8) (s : State) : Result :=
  if s.params.nmax ≤ idx.toNat then .next (s.illegalCommand (encode (.parse idx)))
  else match polyParse (s.polyRaw.getD idx.toNat 0#32) with
    | none => .next (s.raise .invalidPolynomial (polyErrorInfo idx.toNat 1))
    | some m => .next { s with parseResult := BitVec.ofNat 32 m }.succeed

/-- The polynomial checks of CONFIG in the order of `j` (R107): the masks, or ERR_INFO of the first failure. -/
def parsePolys (k : Nat) : (j : Nat) → List Word → Except Word (List Nat)
  | _, [] => .ok []
  | j, v :: vs =>
    match polyParse v with
    | none => .error (polyErrorInfo j 1)
    | some m =>
      if 2 ^ k ≤ m then .error (polyErrorInfo j 2)
      else match parsePolys k (j + 1) vs with
        | .error info => .error info
        | .ok ms => .ok (m :: ms)

/-- The commit of CONFIG (R108): all of the configuration at once, with mask 0 for every polynomial at or above `n`, and a
fresh encoder register. -/
def State.configure (s : State) (k n : BitVec 8) (masks : List Nat) : State :=
  { s with
    cfgK := k
    cfgN := n
    polyMask := masks.map (BitVec.ofNat 32) ++ List.replicate (s.params.nmax - n.toNat) 0#32
    encReg := 0#32
    cfgValid := true }

/-- CONFIG (R105): the range checks of R106, the polynomial checks of R107, then the commit of R108. -/
def execConfig (k n : BitVec 8) (s : State) : Result :=
  if k.toNat < 2 ∨ s.params.kmax < k.toNat then .next (s.raise .invalidConfiguration 1#32)
  else if n.toNat < 1 ∨ s.params.nmax < n.toNat then .next (s.raise .invalidConfiguration 2#32)
  else match parsePolys k.toNat 0 (s.polyRaw.take n.toNat) with
    | .error info => .next (s.raise .invalidPolynomial info)
    | .ok masks => .next (s.configure k n masks).succeed

end Sys2Proof.Machine
end

