-- ==== Sys2Proof/Machine/Interleaver.lean ====
section
/-! DEFINITION. The bit interleaver: INTLV (R170 to R174). -/

namespace Sys2Proof.Machine

/-- `NP(i, len)` (R170). -/
def newPosition (i len : Nat) : Nat := (i * 7 + 5) % len

/-- `ILV(L)` of R171: zero fill, then the scatter in increasing `i`, so that the last write to a position stays (R172). An
empty sequence computes no position (R174). -/
def interleave (bits : Bits) : Bits :=
  (List.range bits.length).foldl (fun out i => out.set (newPosition i bits.length) (bits.getD i false))
    (List.replicate bits.length false)

/-- INTLV (R171). It needs no configuration. -/
def execIntlv (s : State) : Result :=
  if inputTooLong s then .next (s.raise .invalidInputLength s.ilen)
  else if interleaverFaults s then .next (s.raise .invalidInputLength s.ilen)
  else .next (s.output (interleave (inputBits s)) s.ilen.toNat).succeed

end Sys2Proof.Machine
end

