-- ==== Sys2Proof/Machine/Turbo.lean ====
section
/-! DEFINITION. The turbo encoder: TURBO (R180 to R186). -/

namespace Sys2Proof.Machine

/-- The width of TREG1 and TREG2, `K_TURBO - 1` bits (R46, R180). -/
def turboWidth : Nat := Config.kTurbo - 1

/-- The output of TURBO: the systematic bits, then the two parity streams, each from a register reset to 0 (R181 to R184). -/
def turboBits (masks : List Nat) (bits : Bits) : Bits :=
  bits ++ codeword turboWidth masks 0 bits ++ codeword turboWidth masks 0 (interleave bits)

/-- TURBO (R184). It neither reads nor writes ENC_REG (R180). -/
def execTurbo (s : State) : Result :=
  if s.cfgValid = false then .next (s.raise .invalidConfiguration 3#32)
  else if inputTooLong s then .next (s.raise .invalidInputLength s.ilen)
  else if interleaverFaults s then .next (s.raise .invalidInputLength s.ilen)
  else
    let bits := inputBits s
    let s' := { s with
      treg1 := BitVec.ofNat 2 (shiftIn turboWidth 0 bits)
      treg2 := BitVec.ofNat 2 (shiftIn turboWidth 0 (interleave bits)) }
    .next (s'.output (turboBits (tapMasks s) bits) (s.ilen.toNat * (1 + 2 * polyCount s))).succeed

end Sys2Proof.Machine
end

