-- ==== Sys2Proof/Machine/Viterbi.lean ====
section
/-! DEFINITION. The Viterbi decoder: DECODE (R140 to R158). `w = K - 1` is the width of a state number throughout, so
there are `2^w` states (R140). The metrics, the back-pointers and the transition table live during the command only
(R47, R65; log entry 9). -/

namespace Sys2Proof.Machine

/-- What step `t` keeps for a destination: its metric `PM'[d]` and its back-pointer `BP[t][d]` (R147, R148). No survivor
stands for UNREACHED (R143). -/
structure Survivor where
  metric : Nat
  pred : Nat
  bit : Bool
deriving DecidableEq, Repr

/-- The path metrics before step 0 (R143): state 0 has metric 0, every other state is UNREACHED. -/
def startMetrics (w : Nat) : List (Option Nat) := (List.range (2 ^ w)).map (fun s => if s = 0 then some 0 else none)

/-- The branch metric `BM_t(s, b) = HD(OUT(s, b), RX_t)` (R142, R145). -/
def branchMetric (w : Nat) (masks : List Nat) (rx : Bits) (s : Nat) (b : Bool) : Nat :=
  hammingDistance (outGroup masks (encStep w s b)) rx

/-- The transitions `(s, b)` in the order of R147: increasing `s`, and for equal `s` increasing `b`. -/
def transitions (w : Nat) : List (Nat × Bool) := (List.range (2 ^ w)).flatMap (fun s => [(s, false), (s, true)])

/-- Keep the candidate where there is none yet or its sum is strictly smaller (R147). -/
def select (c : Survivor) : Option Survivor → Option Survivor
  | none => some c
  | some old => if c.metric < old.metric then some c else some old

/-- One round of the inner loop of `ACS(t)` (R147): a transition from an UNREACHED state is no candidate (R146). -/
def acsVisit (w : Nat) (masks : List Nat) (rx : Bits) (pm : List (Option Nat)) (col : List (Option Survivor))
    (tr : Nat × Bool) : List (Option Survivor) :=
  match pm.getD tr.1 none with
  | none => col
  | some m =>
    col.modify (encStep w tr.1 tr.2) (select ⟨m + branchMetric w masks rx tr.1 tr.2, tr.1, tr.2⟩)

/-- `ACS(t)` of R147, for the received group `rx`: the survivor of every destination. -/
def acs (w : Nat) (masks : List Nat) (rx : Bits) (pm : List (Option Nat)) : List (Option Survivor) :=
  (transitions w).foldl (acsVisit w masks rx pm) (List.replicate (2 ^ w) none)

/-- The metrics `PM'` of a column of survivors. -/
def metricsOf (col : List (Option Survivor)) : List (Option Nat) := col.map (Option.map Survivor.metric)

/-- All steps of the trellis (R152): the final metrics, and the columns of back-pointers, the last step first. -/
def trellis (w : Nat) (masks : List Nat) : List Bits → List (Option Nat) → List (List (Option Survivor)) →
    List (Option Nat) × List (List (Option Survivor))
  | [], pm, cols => (pm, cols)
  | rx :: rest, pm, cols =>
    let col := acs w masks rx pm
    trellis w masks rest (metricsOf col) (col :: cols)

/-- One comparison of R150, keeping the state seen first where the metrics are equal. -/
def bestVisit (pm : List (Option Nat)) (best : Option (Nat × Nat)) (s : Nat) : Option (Nat × Nat) :=
  match pm.getD s none, best with
  | none, _ => best
  | some m, none => some (m, s)
  | some m, some (m0, s0) => if m < m0 then some (m, s) else some (m0, s0)

/-- The final state (R150): the smallest metric among the reachable states, ties to the smallest state number. State 0 is
always reachable (R149), so there always is one; without one this answers 0 (log entry 13). -/
def finalState (pm : List (Option Nat)) : Nat :=
  match (List.range pm.length).foldl (bestVisit pm) none with
  | some (_, f) => f
  | none => 0

/-- `TRACEBACK(f)` (R151) over the columns, the last step first; the bits come out in chronological order. Every
back-pointer read is defined (R151); where one is not, this goes to state 0 with bit 0 (log entry 13). -/
def traceback : List (List (Option Survivor)) → Nat → Bits → Bits
  | [], _, bits => bits
  | col :: cols, s, bits =>
    match col.getD s none with
    | some v => traceback cols v.pred (v.bit :: bits)
    | none => traceback cols 0 (false :: bits)

/-- The received groups `RX_0` to `RX_(T-1)` of `n` bits each (R144). -/
def rxGroups (n T : Nat) (rx : Bits) : List Bits := (List.range T).map (fun t => (rx.drop (t * n)).take n)

/-- The decoded sequence of the received groups (R152). -/
def viterbi (w : Nat) (masks : List Nat) (groups : List Bits) : Bits :=
  let r := trellis w masks groups (startMetrics w) []
  traceback r.2 (finalState r.1) []

/-- DECODE (R152). It neither reads nor writes ENC_REG, TREG1 or TREG2 (R157). -/
def execDecode (s : State) : Result :=
  if s.cfgValid = false then .next (s.raise .invalidConfiguration 3#32)
  else if inputTooLong s then .next (s.raise .invalidInputLength s.ilen)
  else if s.ilen.toNat % polyCount s ≠ 0 then .next (s.raise .invalidInputLength s.ilen)
  else
    let T := s.ilen.toNat / polyCount s
    let bits := viterbi (regWidth s) (tapMasks s) (rxGroups (polyCount s) T (inputBits s))
    .next (s.output bits T).succeed

end Sys2Proof.Machine
end

