-- ==== Sys2Proof/Machine/Dispatch.lean ====
section
/-! DEFINITION. One arm per command. -/

namespace Sys2Proof.Machine

/-- The meaning of a command: the CORE runs it to completion, in one step (R10, R243). -/
def exec (i : Instr) (s : State) : Host.Outcome State Fault Refusal :=
  match i with
  | .parse idx => Sys2Proof.Machine.execParse idx s
  | .config k n => Sys2Proof.Machine.execConfig k n s
  | .encrst => Sys2Proof.Machine.execEncrst s
  | .encode => Sys2Proof.Machine.execEncode s
  | .decode => Sys2Proof.Machine.execDecode s
  | .intlv => Sys2Proof.Machine.execIntlv s
  | .turbo => Sys2Proof.Machine.execTurbo s

end Sys2Proof.Machine
end

