-- ==== Sys2Proof/Machine/HostPort.lean ====
section
/-! DEFINITION. The host port: the register map (R30, R53), and what a HOST read or write of a word does (R54 to R61,
R240). -/

namespace Sys2Proof.Machine

/-- The word that stands at an aligned offset of the host window; `none` at a reserved offset and beyond the window (R30,
R50, R53). -/
def locate (p : Params) (off : Nat) : Option Loc :=
  if off < 0x100 then
    match off with
    | 0x000 => some .cmd
    | 0x004 => some .status
    | 0x008 => some .errInfo
    | 0x00C => some .ilen
    | 0x010 => some .olen
    | 0x014 => some .cfgK
    | 0x018 => some .cfgN
    | 0x01C => some .encReg
    | 0x020 => some .parseResult
    | _ => none
  else if off < 0x200 then
    if (off - 0x100) / 4 < p.nmax then some (.polyRaw ((off - 0x100) / 4)) else none
  else if off < 0x300 then
    if (off - 0x200) / 4 < p.nmax then some (.polyMask ((off - 0x200) / 4)) else none
  else if off < ibufBase then none
  else if off < obufBase then
    if (off - ibufBase) / 4 < wordsFor p.lmax then some (.ibuf ((off - ibufBase) / 4)) else none
  else if off < 0x60000 then
    if (off - obufBase) / 4 < wordsFor p.omax then some (.obuf ((off - obufBase) / 4)) else none
  else none

/-- The offset of a named word (R30, R52, R78). -/
def Loc.offset : Loc → Nat
  | .cmd => 0x000
  | .status => 0x004
  | .errInfo => 0x008
  | .ilen => 0x00C
  | .olen => 0x010
  | .cfgK => 0x014
  | .cfgN => 0x018
  | .encReg => 0x01C
  | .parseResult => 0x020
  | .polyRaw j => 0x100 + 4 * j
  | .polyMask j => 0x200 + 4 * j
  | .ibuf w => ibufBase + 4 * w
  | .obuf w => obufBase + 4 * w

/-- The offset of a name in a HOST statement (R78). -/
def Name.toOffset : Name → Nat
  | .loc l => l.offset
  | .offset n => n

/-- The value a HOST read of a word returns: bits that a register does not have read 0 (R32 to R45). A read of CMD is
refused (R31, R58). -/
def readLoc (s : State) : Loc → Except Refusal Word
  | .cmd => .error .writeOnly
  | .status => .ok (statusWord s)
  | .errInfo => .ok s.errInfo
  | .ilen => .ok s.ilen
  | .olen => .ok s.olen
  | .cfgK => .ok (s.cfgK.setWidth 32)
  | .cfgN => .ok (s.cfgN.setWidth 32)
  | .encReg => .ok s.encReg
  | .parseResult => .ok s.parseResult
  | .polyRaw j => .ok (s.polyRaw.getD j 0#32)
  | .polyMask j => .ok (s.polyMask.getD j 0#32)
  | .ibuf w => .ok (ibufWord s w)
  | .obuf w => .ok (obufWord s w)

/-- What a HOST write of a word does. A write of CMD issues the command: BUSY becomes 1, and the HOST then waits (R31,
R33, R240). A write of ILEN, POLY_RAW[j] or an IBUF word stores its value and does nothing else (R61). The other words
are read-only (R58). -/
def writeLoc (s : State) (v : Word) : Loc → Except Refusal State
  | .cmd => .ok { s with busy := true, inFlight := some v, hostWaits := true }
  | .ilen => .ok { s with ilen := v }
  | .polyRaw j => .ok { s with polyRaw := s.polyRaw.set j v }
  | .ibuf w => .ok { s with ibuf := storeWord s.params s.ibuf w v }
  | .status => .error .readOnly
  | .errInfo => .error .readOnly
  | .olen => .error .readOnly
  | .cfgK => .error .readOnly
  | .cfgN => .error .readOnly
  | .encReg => .error .readOnly
  | .parseResult => .error .readOnly
  | .polyMask _ => .error .readOnly
  | .obuf _ => .error .readOnly

/-- The word an access is to, or why the access is refused: its width and alignment (R56), its offset (R57). -/
def target (p : Params) (bytes off : Nat) : Except Refusal Loc :=
  if bytes ≠ 4 then .error .accessWidth
  else if off % 4 ≠ 0 then .error .misaligned
  else match locate p off with
    | none => .error .reservedOffset
    | some l => .ok l

/-- The HOST has read `v` from `l`. A read of STATUS with BUSY = 0 ends the HOST's wait (R240); a read has no other effect
on the block (R61). -/
def noteRead (s : State) (l : Loc) (v : Word) : State :=
  { s with
    hostReads := v :: s.hostReads
    hostWaits := s.hostWaits && !(decide (l = .status) && !s.busy) }

/-- One HOST access (R55 to R62). While the HOST waits for a command, only a read of STATUS is allowed (R240). -/
def hostAccess (a : Access) (s : State) : Result :=
  match a with
  | .read bytes off =>
    match target s.params bytes off with
    | .error r => .refused r
    | .ok l =>
      if s.hostWaits = true ∧ l ≠ .status then .refused .busyProtocol
      else match readLoc s l with
        | .error r => .refused r
        | .ok v => .next (noteRead s l v)
  | .write bytes off v =>
    match target s.params bytes off with
    | .error r => .refused r
    | .ok l =>
      if s.hostWaits = true then .refused .busyProtocol
      else match writeLoc s v l with
        | .error r => .refused r
        | .ok s' => .next s'

end Sys2Proof.Machine
end

