-- ==== Sys2Proof/Machine/HostProgram.lean ====
section
/-! DEFINITION. The statements of a HOST program: the assembler of the commands (R77) and the expansion of every statement
into accesses (R78 to R80). -/

namespace Sys2Proof.Machine

/-- The word of a command, or nothing where the assembler refuses it: PARSE with `idx >= NMAX`, CONFIG with `k` or `n`
above 255 (R77). A CONFIG outside the block's range is accepted (R77). -/
def assemble (p : Params) : AsmCommand → Option Word
  | .parse idx => if idx < p.nmax ∧ idx ≤ 255 then some (encode (.parse (BitVec.ofNat 8 idx))) else none
  | .config k n =>
    if k ≤ 255 ∧ n ≤ 255 then some (encode (.config (BitVec.ofNat 8 k) (BitVec.ofNat 8 n))) else none
  | .encrst => some (encode .encrst)
  | .encode => some (encode .encode)
  | .decode => some (encode .decode)
  | .intlv => some (encode .intlv)
  | .turbo => some (encode .turbo)

/-- `RD name` as an access (R78). -/
def rdTurn (n : Name) : Turn := .access (.read 4 n.toOffset)

/-- `WR name, v` as an access (R78). -/
def wrTurn (n : Name) (v : Word) : Turn := .access (.write 4 n.toOffset v)

/-- A name names a word of the window: the word that stands at its offset. A register of the map that this block lacks
(POLY_RAW[j] with `j >= NMAX`) is a reserved offset (R30, R57). -/
def Name.known (p : Params) : Name → Bool
  | .loc l => decide (locate p l.offset = some l)
  | .offset _ => true

/-- The accesses of POLYS (R80); with no polynomial there are none (log entry 22). -/
def polysTurns : (j : Nat) → List Word → List Turn
  | _, [] => []
  | j, v :: vs => wrTurn (.loc (.polyRaw j)) v :: polysTurns (j + 1) vs

/-- The IBUF word `w` that LOADBITS writes: the bits past the end are 0 (R80). -/
def loadWord (bs : Bits) (w : Nat) : Word := packWord (wordBits (fun i => bs.getD i false) w)

/-- The accesses of LOADBITS (R80); with no bit there is only the write of ILEN (log entry 22). -/
def loadbitsTurns (bs : Bits) : List Turn :=
  (List.range (wordsFor bs.length)).map (fun w => wrTurn (.loc (.ibuf w)) (loadWord bs w))
    ++ [wrTurn (.loc .ilen) (BitVec.ofNat 32 bs.length)]

/-- The accesses of COPYOUT: each OBUF word read is written to the IBUF word of the same number (R80). A read has no side
effect (R61), so the values read are those of the state in which the statement begins (log entry 15). -/
def copyoutTurns (s : State) : List Turn :=
  rdTurn (.loc .olen)
    :: (List.range (wordsFor s.olen.toNat)).flatMap
        (fun w => [rdTurn (.loc (.obuf w)), wrTurn (.loc (.ibuf w)) (obufWord s w)])
    ++ [wrTurn (.loc .ilen) s.olen]

/-- The accesses of READBITS (R80). -/
def readbitsTurns (s : State) : List Turn :=
  rdTurn (.loc .olen) :: (List.range (wordsFor s.olen.toNat)).map (fun w => rdTurn (.loc (.obuf w)))

/-- The result of READBITS: the first `len` bits, in sequence order, of the words read (R80). -/
def firstBits (len : Nat) (words : List Word) : Bits :=
  (List.range len).map (fun i => (words.getD (i / 32) 0#32).getMsbD (i % 32))

/-- WAIT at a state: read STATUS, and read it again while BUSY is 1 (R78). After one poll with BUSY = 1 the CORE moves, so
that the command ends (R243; log entry 14). -/
def waitTurns (s : State) : List Turn :=
  if s.busy then [rdTurn (.loc .status), .core, .stmt .wait] else [rdTurn (.loc .status)]

/-- The turns a statement stands for, or why it is refused (R77 to R80). -/
def Stmt.expand (s : State) : Stmt → Except Refusal (List Turn)
  | .wr n v => if n.known s.params then .ok [wrTurn n v] else .error .reservedOffset
  | .rd n => if n.known s.params then .ok [rdTurn n] else .error .reservedOffset
  | .wait => .ok (waitTurns s)
  | .command c =>
    match assemble s.params c with
    | none => .error .assemblerRefuses
    | some w => .ok [wrTurn (.loc .cmd) w, .stmt .wait]
  | .polys ps => if ps.length ≤ s.params.nmax then .ok (polysTurns 0 ps) else .error .tooManyPolys
  | .loadbits bs => if bs.length ≤ s.params.lmax then .ok (loadbitsTurns bs) else .error .tooManyBits
  | .copyout => if s.olen.toNat ≤ s.params.lmax then .ok (copyoutTurns s) else .error .tooManyBits
  | .readbits => .ok (readbitsTurns s)

/-- A statement's turn: the turns it stands for come first on the agenda. -/
def hostStatement (t : Stmt) (s : State) : Result :=
  match t.expand s with
  | .error r => .refused r
  | .ok turns => .next { s with agenda := turns ++ s.agenda }

end Sys2Proof.Machine
end

