-- ==== Sys2Proof/Machine/Turn.lean ====
section
/-! DEFINITION. One turn of one agent: the CORE runs the command in progress (R10, R31, R243), the HOST makes an access or
begins a statement, or the system resets the block (R230). -/

namespace Sys2Proof.Machine

/-- The CORE executes the word `w`: the command it decodes to, or an illegal command's completion (R31, R74, R75). -/
def runCommand (w : Word) (s : State) : Result :=
  match decode s.params w with
  | .ok i => exec i s
  | .error _ => .next (s.illegalCommand w)

/-- The CORE's turn. With no command in progress the block is idle and keeps all of its state (R220). -/
def coreTurn (s : State) : Result :=
  match s.inFlight with
  | some w => runCommand w s
  | none => .next s

/-- One turn. -/
def takeTurn (t : Turn) (s : State) : Result :=
  match t with
  | .core => coreTurn s
  | .access a => hostAccess a s
  | .stmt t => hostStatement t s
  | .reset => .next s.resetBlock

/-- The machine's step: the next turn of the agenda; with an empty agenda it is the CORE's turn (log entry 3). -/
def stepTurn (s : State) : Result :=
  match s.agenda with
  | [] => coreTurn s
  | t :: rest => takeTurn t { s with agenda := rest }

/-- The state in which the very next step runs the command word `w` (log entry 3): the word is in progress, as after the
HOST's write of CMD (R31), and the next turn is the CORE's. -/
def State.issue (s : State) (w : Word) : State :=
  { s with busy := true, inFlight := some w, hostWaits := true, agenda := .core :: s.agenda }

end Sys2Proof.Machine
end

