-- ==== Sys2Proof/Machine/Assembler.lean ====
section
/-! DEFINITION. The text of a HOST program (R77 to R80): one statement a line, `;` starting a comment, numbers decimal or
hexadecimal with a `0x` prefix. Nothing in `step` reads text; log entry 16. -/

namespace Sys2Proof.Machine.Text

/-- The end of a token. -/
def flush (token : List Char) : List (List Char) := if token.isEmpty then [] else [token]

/-- The tokens of a line: blanks part them, a comma is a token of its own, and `;` ends the line (R78). -/
def tokens : List Char → (token : List Char) → List (List Char)
  | [], token => flush token
  | c :: cs, token =>
    if c = ';' then flush token
    else if c = ' ' ∨ c = '\t' then flush token ++ tokens cs []
    else if c = ',' then flush token ++ [','] :: tokens cs []
    else tokens cs (token ++ [c])

/-- The value of a digit: `0` to `9`, and `a` to `f` in either case. -/
def digitValue (c : Char) : Option Nat :=
  let n := c.toNat
  if 48 ≤ n ∧ n ≤ 57 then some (n - 48)
  else if 97 ≤ n ∧ n ≤ 102 then some (n - 87)
  else if 65 ≤ n ∧ n ≤ 70 then some (n - 55)
  else none

/-- The digits of a number in a base. -/
def digits (base : Nat) : List Char → (acc : Nat) → Option Nat
  | [], acc => some acc
  | c :: cs, acc =>
    match digitValue c with
    | some d => if d < base then digits base cs (acc * base + d) else none
    | none => none

/-- A decimal number (R77). -/
def decimal (cs : List Char) : Option Nat := if cs.isEmpty then none else digits 10 cs 0

/-- A hexadecimal number with its `0x` prefix (R78). -/
def hexadecimal : List Char → Option Nat
  | '0' :: 'x' :: h => if h.isEmpty then none else digits 16 h 0
  | _ => none

/-- A number: hexadecimal with a `0x` prefix, else decimal (R78). -/
def number (cs : List Char) : Option Nat := (hexadecimal cs).or (decimal cs)

/-- A 32-bit value (R55, R78). -/
def word (cs : List Char) : Option Word :=
  match number cs with
  | some n => if n < 2 ^ 32 then some (BitVec.ofNat 32 n) else none
  | none => none

/-- What follows a prefix. -/
def after (pre cs : List Char) : Option (List Char) := if pre.isPrefixOf cs then some (cs.drop pre.length) else none

/-- A number before a closing bracket (R78). -/
def bracketed (cs : List Char) : Option Nat := if cs.getLast? = some ']' then number cs.dropLast else none

/-- The name of a word: a register of the map, POLY_RAW[j], POLY_MASK[j], IBUF.w, OBUF.w, or a hexadecimal offset (R30,
R78). The index `j` or `w` is a number, decimal or hexadecimal (R78). -/
def name (cs : List Char) : Option Name :=
  if cs = "CMD".toList then some (.loc .cmd)
  else if cs = "STATUS".toList then some (.loc .status)
  else if cs = "ERR_INFO".toList then some (.loc .errInfo)
  else if cs = "ILEN".toList then some (.loc .ilen)
  else if cs = "OLEN".toList then some (.loc .olen)
  else if cs = "CFG_K".toList then some (.loc .cfgK)
  else if cs = "CFG_N".toList then some (.loc .cfgN)
  else if cs = "ENC_REG".toList then some (.loc .encReg)
  else if cs = "PARSE_RESULT".toList then some (.loc .parseResult)
  else match after "POLY_RAW[".toList cs with
  | some r => (bracketed r).map (fun j => .loc (.polyRaw j))
  | none =>
  match after "POLY_MASK[".toList cs with
  | some r => (bracketed r).map (fun j => .loc (.polyMask j))
  | none =>
  match after "IBUF.".toList cs with
  | some r => (number r).map (fun w => .loc (.ibuf w))
  | none =>
  match after "OBUF.".toList cs with
  | some r => (number r).map (fun w => .loc (.obuf w))
  | none => (hexadecimal cs).map .offset

/-- One value or more, parted by commas (R80). -/
def commaWords : List (List Char) → Option (List Word)
  | [] => none
  | [v] => (word v).map (fun x => [x])
  | v :: c :: rest =>
    if c = [','] then
      match word v, commaWords rest with
      | some x, some xs => some (x :: xs)
      | _, _ => none
    else none

/-- The polynomials of POLYS (R80). That POLYS with no polynomial is a statement is the model's choice: R80 gives only
`m <= NMAX` (log entry 22). -/
def polys (args : List (List Char)) : Option (List Word) := if args.isEmpty then some [] else commaWords args

/-- One bit of LOADBITS (R80). -/
def bitOf (t : List Char) : Option Bool :=
  if t = ['0'] then some false else if t = ['1'] then some true else none

/-- The command of a line with two operands or fewer (R77). -/
def command (m : List Char) (args : List (List Char)) : Option AsmCommand :=
  match args with
  | [] =>
    if m = "ENCRST".toList then some .encrst
    else if m = "ENCODE".toList then some .encode
    else if m = "DECODE".toList then some .decode
    else if m = "INTLV".toList then some .intlv
    else if m = "TURBO".toList then some .turbo
    else none
  | [a] => if m = "PARSE".toList then (decimal a).map .parse else none
  | [a, c, b] =>
    if m = "CONFIG".toList ∧ c = [','] then
      match decimal a, decimal b with
      | some k, some n => some (.config k n)
      | _, _ => none
    else none
  | _ => none

/-- The statement of a line's tokens (R77 to R80). LOADBITS with no bit is a statement, as POLYS with no polynomial is (log
entry 22). -/
def stmt (m : List Char) (args : List (List Char)) : Option Stmt :=
  if m = "WR".toList then
    match args with
    | [n, c, v] =>
      if c = [','] then
        match name n, word v with
        | some n, some v => some (.wr n v)
        | _, _ => none
      else none
    | _ => none
  else if m = "RD".toList then
    match args with
    | [n] => (name n).map .rd
    | _ => none
  else if m = "WAIT".toList then (if args.isEmpty then some .wait else none)
  else if m = "POLYS".toList then (polys args).map .polys
  else if m = "LOADBITS".toList then (args.mapM bitOf).map .loadbits
  else if m = "COPYOUT".toList then (if args.isEmpty then some .copyout else none)
  else if m = "READBITS".toList then (if args.isEmpty then some .readbits else none)
  else (command m args).map .command

/-- A line: no statement, one statement, or (`none`) no line of a HOST program. -/
def line (cs : List Char) : Option (List Stmt) :=
  match tokens cs [] with
  | [] => some []
  | m :: args => (stmt m args).map (fun t => [t])

/-- The lines of a text. -/
def lines : List Char → (current : List Char) → List (List Char)
  | [], current => [current]
  | c :: cs, current => if c = '\n' then current :: lines cs [] else lines cs (current ++ [c])

/-- The statements of a HOST program's text, one a line (R78). -/
def program (text : List Char) : Option (List Stmt) := ((lines text []).mapM line).map List.flatten

end Sys2Proof.Machine.Text
end

