-- ==== Sys2Proof/Safety.lean ====
section
/-! DEFINITION. What statements say about states: the invariant of the model, the states that a HOST can bring about, what
it is for a run to be safe, and the terms the statements are written in. -/

namespace Sys2Proof.Machine

/-- What a configuration in force is like (R39, R40, R41, R44, R108). -/
structure State.ConfigOk (s : State) : Prop where
  k_lo : 2 ≤ s.cfgK.toNat
  k_hi : s.cfgK.toNat ≤ s.params.kmax
  n_lo : 1 ≤ s.cfgN.toNat
  n_hi : s.cfgN.toNat ≤ s.params.nmax
  masks_fit : ∀ j, j < s.cfgN.toNat → (s.polyMask.getD j 0#32).toNat < 2 ^ s.cfgK.toNat
  masks_zero : ∀ j, j < s.params.nmax → s.cfgN.toNat ≤ j → s.polyMask.getD j 0#32 = 0#32
  reg_fits : s.encReg.toNat < 2 ^ (s.cfgK.toNat - 1)

/-- What the configuration registers hold before the first successful CONFIG (R34, R39, R40, R44, R49). -/
structure State.Unconfigured (s : State) : Prop where
  k_zero : s.cfgK = 0#8
  n_zero : s.cfgN = 0#8
  masks_zero : s.polyMask = List.replicate s.params.nmax 0#32
  reg_zero : s.encReg = 0#32

/-- The invariant of the model: the parameters are legal; the register files have NMAX entries; the store is in its
canonical form; OBUF holds OLEN bits, at most OMAX (R38); PARSE_RESULT has 30 bits (R42); ERR is a code that is produced,
and ERR_INFO is 0 after a success (R35, R36, R201); BUSY says that a command is in progress, which the HOST waits for
(R33, R240); and the configuration is one CONFIG can write, or none (R34). -/
structure State.Inv (s : State) : Prop where
  legal : s.params.Legal
  raw_len : s.polyRaw.length = s.params.nmax
  mask_len : s.polyMask.length = s.params.nmax
  store_wf : s.ibuf.wf s.params = true
  obuf_len : s.obuf.length = s.olen.toNat
  olen_fits : s.olen.toNat ≤ s.params.omax
  parse_fits : s.parseResult.toNat < 2 ^ 30
  err_code : s.err = 0#3 ∨ s.err = 1#3 ∨ s.err = 2#3 ∨ s.err = 3#3 ∨ s.err = 7#3
  err_info : s.err = 0#3 → s.errInfo = 0#32
  busy_eq : s.busy = s.inFlight.isSome
  busy_waits : s.busy = true → s.hostWaits = true
  configured : s.cfgValid = true → s.ConfigOk
  unconfigured : s.cfgValid = false → s.Unconfigured

/-- The block right after reset with any parameters, and any program of the HOST. -/
def State.boot (p : Params) (turns : List Turn) : State :=
  { State.reset with
    params := p
    polyRaw := List.replicate p.nmax 0#32
    polyMask := List.replicate p.nmax 0#32
    agenda := turns }

/-- The states that some HOST can bring a legal block to. -/
inductive Reachable : State → Prop where
  | boot (p : Params) (turns : List Turn) (h : p.Legal) : Reachable (State.boot p turns)
  | step (s t : State) (hs : Reachable s) (h : step s = .next t) : Reachable t

/-- A safe step: the machine goes on. The block itself never stops (R243); only a turn that the spec tells a model to
refuse does (R56 to R58, R210, R240). -/
def SafeStep (s : State) : Prop := ∃ t, step s = .next t

/-- A safe run of `k` steps. -/
def SafeRun (k : Nat) (s : State) : Prop := ∃ t, Host.Core.run core k s = .next t

end Sys2Proof.Machine

namespace Sys2Proof.Claims

open Sys2Proof.Machine

/-- A command has ended with completion code `code` and ERR_INFO `info`, and nothing else changed (R205, R206). -/
def completed (s : State) (code : BitVec 3) (info : Word) : State :=
  { s with err := code, errInfo := info, busy := false, inFlight := none }

/-- Bit `i` of POLY_MASK[j] (R103). -/
def maskBit (s : State) (j i : Nat) : Bool := (s.polyMask.getD j 0#32).getLsbD i

/-- The XOR of a sequence of bits. -/
def xorAll (bs : Bits) : Bool := bs.foldl xor false

/-- Bit `i` of the encoder register after input bit `q`, from the start value `r0` (R129). -/
def regBit (input : Nat → Bool) (r0 q i : Nat) : Bool := if i ≤ q then input (q - i) else r0.testBit (i - q - 1)

/-- `OBUF[q*N + j]` after ENCODE, in the closed form of R129. -/
def encodedBit (s : State) (q j : Nat) : Bool :=
  xorAll ((List.range (s.cfgK.toNat - 1)).map
    (fun i => maskBit s j i && regBit (ibufBit s) s.encReg.toNat q i))

/-- A parity bit of a constituent encoder of TURBO, which has a register of two bits (R182, R183). -/
def turboParity (s : State) (input : Nat → Bool) (q j : Nat) : Bool :=
  xor (maskBit s j 0 && input q) (maskBit s j 1 && (decide (0 < q) && input (q - 1)))

/-- The received groups that DECODE reads (R144, R152). -/
def receivedGroups (s : State) : List Bits :=
  rxGroups s.cfgN.toNat (s.ilen.toNat / s.cfgN.toNat) (inputBits s)

/-- The metrics and the back-pointers after the steps of the given groups (R152). -/
def trellisOf (w : Nat) (masks : List Nat) (groups : List Bits) :
    List (Option Nat) × List (List (Option Survivor)) := trellis w masks groups (startMetrics w) []

/-- The walk of the traceback (R151): where it ends, or nothing where it reads a back-pointer that is not defined. -/
def backWalk : List (List (Option Survivor)) → Nat → Option Nat
  | [], s => some s
  | col :: cols, s =>
    match col.getD s none with
    | some v => backWalk cols v.pred
    | none => none

/-- A word of the register map or of a buffer that this block has (R30, R53). -/
def locExists (p : Params) : Loc → Prop
  | .polyRaw j => j < p.nmax
  | .polyMask j => j < p.nmax
  | .ibuf w => w < (p.lmax + 31) / 32
  | .obuf w => w < (p.omax + 31) / 32
  | _ => True

/-- A bit sequence with the bit at `p` flipped. -/
def flipAt (bs : Bits) (p : Nat) : Bits := bs.modify p not

end Sys2Proof.Claims
end

