-- ==== Sys2Proof/Certificates/Slice0/Obligations.lean ====
section
/-! DEFINITION. The statements about the model, for the provers. Each docstring names the rule of the spec it formalises,
or says that it rests on a choice of the model's. -/

open Sys2Proof Sys2Proof.Machine Sys2Proof.Claims

/-! ### Encoding -/

/-- Words written out from the tables of R73 and R77 decode to the commands they stand for. -/
def Obligations.ListedWordsDecode : Prop :=
  decode Params.standard 0x10000005#32 = .ok (.parse 5#8) ∧
  decode Params.standard 0x20030200#32 = .ok (.config 3#8 2#8) ∧
  decode Params.standard 0x30000000#32 = .ok .encrst ∧
  decode Params.standard 0x40000000#32 = .ok .encode ∧
  decode Params.standard 0x50000000#32 = .ok .decode ∧
  decode Params.standard 0x60000000#32 = .ok .intlv ∧
  decode Params.standard 0x70000000#32 = .ok .turbo

/-- Decoding the word of a well-formed command gives the command back, with every operand (R71 to R74, R77). -/
def Obligations.DecodeOfEncodeIsTheCommand : Prop :=
  ∀ (p : Params) (i : Instr), i.wellFormed p = true → decode p (encode i) = .ok i

/-- A word that decodes to a command is the one word of that command (R70 to R74). -/
def Obligations.DecodedWordIsTheCommandsWord : Prop :=
  ∀ (p : Params) (w : Word) (i : Instr), decode p w = .ok i → encode i = w ∧ i.wellFormed p = true

/-- R75: exactly which words are illegal, in arithmetic on the word, and what an illegal word does. -/
def Obligations.IllegalWordsAndTheirCompletion : Prop :=
  (∀ (p : Params) (w : Word),
    (∃ e, decode p w = .error e) ↔
      (w.toNat / 2 ^ 28 = 0 ∨ 8 ≤ w.toNat / 2 ^ 28 ∨ w.toNat / 2 ^ 24 % 16 ≠ 0 ∨
       (w.toNat / 2 ^ 28 = 1 ∧
         (w.toNat / 2 ^ 16 % 256 ≠ 0 ∨ w.toNat / 2 ^ 8 % 256 ≠ 0 ∨ p.nmax ≤ w.toNat % 256)) ∨
       (w.toNat / 2 ^ 28 = 2 ∧ w.toNat % 256 ≠ 0) ∨
       (3 ≤ w.toNat / 2 ^ 28 ∧ w.toNat % 2 ^ 24 ≠ 0))) ∧
  (∀ (s : State) (w : Word) (e : DecodeError) (rest : List Turn),
    s.inFlight = some w → decode s.params w = .error e →
      step { s with agenda := .core :: rest } =
        .next { s with agenda := rest, err := 7#3, errInfo := w, busy := false, inFlight := none })

/-- R77: the words the assembler gives, and the commands it refuses. -/
def Obligations.AssemblerGivesTheListedWords : Prop :=
  ∀ p : Params, p.Legal →
    (∀ idx, assemble p (.parse idx) =
      if idx < p.nmax then some (0x10000000#32 ||| BitVec.ofNat 32 idx) else none) ∧
    (∀ k n, assemble p (.config k n) =
      if k ≤ 255 ∧ n ≤ 255 then
        some (0x20000000#32 ||| (BitVec.ofNat 32 k <<< 16) ||| (BitVec.ofNat 32 n <<< 8))
      else none) ∧
    assemble p .encrst = some 0x30000000#32 ∧ assemble p .encode = some 0x40000000#32 ∧
    assemble p .decode = some 0x50000000#32 ∧ assemble p .intlv = some 0x60000000#32 ∧
    assemble p .turbo = some 0x70000000#32 ∧
    (∀ c w, assemble p c = some w → ∃ i, decode p w = .ok i)

/-! ### Steps, the BUSY protocol, reset -/

/-- The CORE's step runs the command that the word in progress decodes to (R31, R74, R243), on the CORE's turn of the
agenda, on an empty agenda, and after `withFetchWord`; with no command in progress the block is idle and keeps all of its
state (R220). The agenda is the model's own: log entry 3. -/
def Obligations.StepRunsTheDecodedCommand : Prop :=
  (∀ (s : State) (w : Word) (i : Instr) (rest : List Turn),
    s.inFlight = some w → decode s.params w = .ok i →
      step { s with agenda := .core :: rest } = exec i { s with agenda := rest }) ∧
  (∀ (s : State) (w : Word) (i : Instr),
    s.inFlight = some w → decode s.params w = .ok i → s.agenda = [] → step s = exec i s) ∧
  (∀ (s : State) (nbits w : Nat) (i : Instr),
    decode s.params (BitVec.ofNat 32 (w % 2 ^ nbits)) = .ok i →
      step (s.withFetchWord nbits w) =
        exec i { s with busy := true, inFlight := some (BitVec.ofNat 32 (w % 2 ^ nbits)), hostWaits := true }) ∧
  (∀ (s : State) (rest : List Turn), s.inFlight = none →
    step { s with agenda := .core :: rest } = .next { s with agenda := rest }) ∧
  (∀ s : State, s.inFlight = none → s.agenda = [] → step s = .next s)

/-- R31: a write of CMD issues the command; BUSY is 1 from the write on and 0 when the command has completed, which is as
R74 decodes it; a read of CMD is refused; and so is a write of CMD while BUSY is 1. -/
def Obligations.CmdWriteIssuesTheCommand : Prop :=
  (∀ (s : State) (w : Word) (rest : List Turn), s.hostWaits = false →
    ∃ t u : State,
      step { s with agenda := .access (.write 4 0x000 w) :: .core :: rest } = .next t ∧
      t = { s with agenda := .core :: rest, busy := true, inFlight := some w, hostWaits := true } ∧
      step t = .next u ∧ u.busy = false ∧ u.inFlight = none ∧
      (∀ i, decode s.params w = .ok i → exec i { t with agenda := rest } = .next u)) ∧
  (∀ (s : State) (rest : List Turn), s.hostWaits = false →
    step { s with agenda := .access (.read 4 0x000) :: rest } = .refused .writeOnly) ∧
  (∀ (s : State) (w : Word) (rest : List Turn), s.Inv → s.busy = true →
    step { s with agenda := .access (.write 4 0x000 w) :: rest } = .refused .busyProtocol)

/-- R240: from its write of CMD until it reads STATUS with BUSY = 0 the HOST may only read STATUS; every other access is
refused. -/
def Obligations.WaitingHostMayOnlyReadStatus : Prop :=
  (∀ (s : State) (a : Access) (rest : List Turn), s.hostWaits = true → a ≠ .read 4 0x004 →
    ∃ r, step { s with agenda := .access a :: rest } = .refused r) ∧
  (∀ (s : State) (rest : List Turn), s.hostWaits = true →
    step { s with agenda := .access (.read 4 0x004) :: rest } =
      .next { s with agenda := rest, hostReads := statusWord s :: s.hostReads, hostWaits := s.busy })

/-- A command mnemonic of a HOST program runs to its completion, and the HOST may go on: seven steps of the machine (the
expansion, the write of CMD, one poll with BUSY = 1, the command, one poll with BUSY = 0; R79, R240, R243). How many polls
answer BUSY = 1 is the model's choice (log entry 14). -/
def Obligations.CommandStatementRunsToCompletion : Prop :=
  ∀ (s : State) (c : AsmCommand) (w : Word) (rest : List Turn),
    s.busy = false → s.hostWaits = false → assemble s.params c = some w →
      ∃ t : State,
        runCommand w { s with
          busy := true, inFlight := some w, hostWaits := true, agenda := .stmt .wait :: rest,
          hostReads := statusWord { s with busy := true } :: s.hostReads } = .next t ∧
        t.busy = false ∧
        Host.Core.run core 7 { s with agenda := .stmt (.command c) :: rest } =
          .next { t with agenda := rest, hostWaits := false, hostReads := statusWord t :: t.hostReads }

/-- R49: the reset values. Nothing is stored in IBUF or OBUF, so every bit of both is the free value. -/
def Obligations.ResetValues : Prop :=
  State.reset.busy = false ∧ State.reset.cfgValid = false ∧ State.reset.err = 0#3 ∧ State.reset.errInfo = 0#32 ∧
  State.reset.ilen = 0#32 ∧ State.reset.olen = 0#32 ∧ State.reset.cfgK = 0#8 ∧ State.reset.cfgN = 0#8 ∧
  State.reset.encReg = 0#32 ∧ State.reset.parseResult = 0#32 ∧
  (∀ j, j < State.reset.params.nmax → State.reset.polyRaw[j]? = some 0#32) ∧
  (∀ j, j < State.reset.params.nmax → State.reset.polyMask[j]? = some 0#32) ∧
  State.reset.treg1 = 0#2 ∧ State.reset.treg2 = 0#2 ∧ State.reset.ibuf = [] ∧ State.reset.obuf = [] ∧
  State.reset.inFlight = none

/-- Reset at any time (R230): a command in progress is abandoned, every register takes the value of R49, the buffers
become unspecified, the HOST may issue a command. That the parameters, the agenda and the values read stay is the model's
choice (log entry 11). -/
def Obligations.ResetTurnGivesTheResetState : Prop :=
  ∀ (s : State) (rest : List Turn),
    ∃ t : State, step { s with agenda := .reset :: rest } = .next t ∧
      t = { State.boot s.params rest with
        ibufEra := t.ibufEra, obufEra := t.obufEra, hostReads := s.hostReads } ∧
      t.ibufEra ≠ s.ibufEra ∧ t.obufEra ≠ s.obufEra

/-! ### The host port -/

/-- R32: the STATUS word, bit by bit; its reset value; and a write of STATUS is refused. -/
def Obligations.StatusWordFields : Prop :=
  (∀ s : State,
    (statusWord s).getLsbD 0 = s.busy ∧ (statusWord s).getLsbD 1 = s.cfgValid ∧
    (∀ i, i < 3 → (statusWord s).getLsbD (4 + i) = s.err.getLsbD i) ∧
    (∀ i, (2 ≤ i ∧ i < 4) ∨ 7 ≤ i → (statusWord s).getLsbD i = false)) ∧
  statusWord State.reset = 0#32 ∧
  (∀ (s : State) (v : Word) (rest : List Turn), s.hostWaits = false →
    step { s with agenda := .access (.write 4 0x004 v) :: rest } = .refused .readOnly)

/-- The register map (R30, R53): every word stands at its offset, and at no other. -/
def Obligations.EveryWordStandsAtItsOffset : Prop :=
  ∀ p : Params, p.Legal →
    (∀ l, locExists p l → l.offset % 4 = 0 ∧ locate p l.offset = some l) ∧
    (∀ off l, off % 4 = 0 → locate p off = some l → locExists p l ∧ l.offset = off)

/-- What a HOST read of each register of R30 returns (R32, R36 to R44) when the HOST need not wait: the register, bits it
does not have reading 0. A read of CMD is refused (`UnsupportedAccessesAreRefused`), and a read of STATUS by a HOST that
waits is in `WaitingHostMayOnlyReadStatus`. -/
def Obligations.RegisterReadsReturnTheRegister : Prop :=
  ∀ (s : State) (off : Nat) (v : Word) (rest : List Turn), s.params.Legal → s.hostWaits = false →
    ((off = 0x004 ∧ v = statusWord s) ∨ (off = 0x008 ∧ v = s.errInfo) ∨ (off = 0x00C ∧ v = s.ilen) ∨
     (off = 0x010 ∧ v = s.olen) ∨ (off = 0x014 ∧ v = BitVec.ofNat 32 s.cfgK.toNat) ∨
     (off = 0x018 ∧ v = BitVec.ofNat 32 s.cfgN.toNat) ∨ (off = 0x01C ∧ v = s.encReg) ∨
     (off = 0x020 ∧ v = s.parseResult) ∨
     (∃ j, j < s.params.nmax ∧ off = 0x100 + 4 * j ∧ v = s.polyRaw.getD j 0#32) ∨
     (∃ j, j < s.params.nmax ∧ off = 0x200 + 4 * j ∧ v = s.polyMask.getD j 0#32)) →
      step { s with agenda := .access (.read 4 off) :: rest } =
        .next { s with agenda := rest, hostReads := v :: s.hostReads }

/-- R52: the packing of bits into buffer words, most significant first, for HOST reads of both buffers and HOST writes of
IBUF; a position at or above the capacity reads 0 and ignores writes. -/
def Obligations.BufferWordsPackBitsMsbFirst : Prop :=
  ∀ (s : State) (w : Nat) (rest : List Turn), s.params.Legal → s.hostWaits = false →
    (w < (s.params.lmax + 31) / 32 →
      ∃ v : Word, step { s with agenda := .access (.read 4 (0x10000 + 4 * w)) :: rest } =
          .next { s with agenda := rest, hostReads := v :: s.hostReads } ∧
        (∀ k, k < 32 → v.getLsbD (31 - k) = ibufBit s (32 * w + k))) ∧
    (w < (s.params.omax + 31) / 32 →
      ∃ v : Word, step { s with agenda := .access (.read 4 (0x20000 + 4 * w)) :: rest } =
          .next { s with agenda := rest, hostReads := v :: s.hostReads } ∧
        (∀ k, k < 32 → v.getLsbD (31 - k) = obufBit s (32 * w + k))) ∧
    (∀ v : Word, w < (s.params.lmax + 31) / 32 →
      ∃ t : State, step { s with agenda := .access (.write 4 (0x10000 + 4 * w) v) :: rest } = .next t ∧
        t = { s with agenda := rest, ibuf := t.ibuf } ∧
        (∀ k, k < 32 → 32 * w + k < s.params.lmax → ibufBit t (32 * w + k) = v.getLsbD (31 - k)) ∧
        (∀ i, i / 32 ≠ w → ibufBit t i = ibufBit s i)) ∧
    (∀ i, s.params.lmax ≤ i → ibufBit s i = false) ∧
    (∀ i, s.params.omax ≤ i → obufBit s i = false)

/-- The accesses that are not supported (R56, R57, R58), each refused. That an offset at or beyond 0x60000, which the last
reserved range takes in, is refused as a reserved one is the model's reading (log entry 17). -/
def Obligations.UnsupportedAccessesAreRefused : Prop :=
  ∀ (s : State) (v : Word) (off : Nat) (rest : List Turn), s.params.Legal → s.hostWaits = false →
    (∀ bytes, bytes ≠ 4 ∨ off % 4 ≠ 0 →
      (∃ r, step { s with agenda := .access (.read bytes off) :: rest } = .refused r) ∧
      (∃ r, step { s with agenda := .access (.write bytes off v) :: rest } = .refused r)) ∧
    (((0x024 ≤ off ∧ off < 0x100) ∨ (0x100 + 4 * s.params.nmax ≤ off ∧ off < 0x200) ∨
      (0x200 + 4 * s.params.nmax ≤ off ∧ off < 0x10000) ∨
      (0x10000 + 4 * ((s.params.lmax + 31) / 32) ≤ off ∧ off < 0x20000) ∨
      0x20000 + 4 * ((s.params.omax + 31) / 32) ≤ off) →
      (∃ r, step { s with agenda := .access (.read 4 off) :: rest } = .refused r) ∧
      (∃ r, step { s with agenda := .access (.write 4 off v) :: rest } = .refused r)) ∧
    ((off = 0x004 ∨ off = 0x008 ∨ off = 0x010 ∨ off = 0x014 ∨ off = 0x018 ∨ off = 0x01C ∨ off = 0x020 ∨
      (∃ j, j < s.params.nmax ∧ off = 0x200 + 4 * j) ∨
      (∃ w, w < (s.params.omax + 31) / 32 ∧ off = 0x20000 + 4 * w)) →
      step { s with agenda := .access (.write 4 off v) :: rest } = .refused .readOnly) ∧
    step { s with agenda := .access (.read 4 0x000) :: rest } = .refused .writeOnly

/-- R61: a read changes nothing of the block (only what the HOST has read, and that it need not wait any longer), and the
same read again returns the same value; a write of ILEN, POLY_RAW[j] or an IBUF word stores its value and does nothing
else. What the bits of IBUF are after the store of a word is in `BufferWordsPackBitsMsbFirst`. -/
def Obligations.ReadsHaveNoSideEffectAndWritesOnlyStore : Prop :=
  (∀ (s t : State) (bytes off : Nat) (rest : List Turn),
    step { s with agenda := .access (.read bytes off) :: .access (.read bytes off) :: rest } = .next t →
      ∃ v waits, t = { s with
          agenda := .access (.read bytes off) :: rest, hostReads := v :: s.hostReads, hostWaits := waits } ∧
        ∃ waits', step t = .next { t with agenda := rest, hostReads := v :: t.hostReads, hostWaits := waits' }) ∧
  (∀ (s : State) (v : Word) (rest : List Turn), s.params.Legal → s.hostWaits = false →
    step { s with agenda := .access (.write 4 0x000 v) :: rest } =
      .next { s with agenda := rest, busy := true, inFlight := some v, hostWaits := true } ∧
    step { s with agenda := .access (.write 4 0x00C v) :: rest } = .next { s with agenda := rest, ilen := v } ∧
    (∀ j, j < s.params.nmax →
      step { s with agenda := .access (.write 4 (0x100 + 4 * j) v) :: rest } =
        .next { s with agenda := rest, polyRaw := s.polyRaw.set j v }) ∧
    (∀ w, w < (s.params.lmax + 31) / 32 →
      step { s with agenda := .access (.write 4 (0x10000 + 4 * w) v) :: rest } =
        .next { s with agenda := rest, ibuf := storeWord s.params s.ibuf w v }))

/-! ### Completion and errors of all commands -/

/-- Every command completes, with an error code that is produced, BUSY = 0 and no command in progress; a success leaves
ERR_INFO = 0 (R33, R35, R36, R201, R206, R243). -/
def Obligations.EveryCommandCompletes : Prop :=
  ∀ (i : Instr) (s : State), ∃ t : State, exec i s = .next t ∧ t.busy = false ∧ t.inFlight = none ∧
    (t.err = 0#3 ∨ t.err = 1#3 ∨ t.err = 2#3 ∨ t.err = 3#3 ∨ t.err = 7#3) ∧ (t.err = 0#3 → t.errInfo = 0#32)

/-- R207: a command that ends with an error changes nothing but ERR, ERR_INFO and BUSY (the command in progress is over). -/
def Obligations.ErrorsAreAllOrNothing : Prop :=
  ∀ (i : Instr) (s t : State), exec i s = .next t → t.err ≠ 0#3 → t = completed s t.err t.errInfo

/-- Which error each command ends with, in the priority of R204, with the values of R203 (the polynomial errors of CONFIG
are `ConfigReportsTheFirstBadPolynomial`; an illegal word is `IllegalWordsAndTheirCompletion`). -/
def Obligations.ErrorOfEachCommand : Prop :=
  (∀ s t : State, exec .encode s = .next t → (t.err, t.errInfo) =
    if s.cfgValid = false then (2#3, 3#32) else if s.params.lmax < s.ilen.toNat then (3#3, s.ilen)
    else (0#3, 0#32)) ∧
  (∀ s t : State, exec .decode s = .next t → (t.err, t.errInfo) =
    if s.cfgValid = false then (2#3, 3#32) else if s.params.lmax < s.ilen.toNat then (3#3, s.ilen)
    else if s.ilen.toNat % s.cfgN.toNat ≠ 0 then (3#3, s.ilen) else (0#3, 0#32)) ∧
  (∀ s t : State, exec .intlv s = .next t → (t.err, t.errInfo) =
    if s.params.lmax < s.ilen.toNat then (3#3, s.ilen)
    else if s.ilen.toNat % 7 = 0 ∧ s.ilen.toNat ≠ 0 ∧ s.params.ilCollide = .fault then (3#3, s.ilen)
    else (0#3, 0#32)) ∧
  (∀ s t : State, exec .turbo s = .next t → (t.err, t.errInfo) =
    if s.cfgValid = false then (2#3, 3#32) else if s.params.lmax < s.ilen.toNat then (3#3, s.ilen)
    else if s.ilen.toNat % 7 = 0 ∧ s.ilen.toNat ≠ 0 ∧ s.params.ilCollide = .fault then (3#3, s.ilen)
    else (0#3, 0#32)) ∧
  (∀ s t : State, exec .encrst s = .next t → (t.err, t.errInfo) = (0#3, 0#32)) ∧
  (∀ (idx : BitVec 8) (s t : State), idx.toNat < s.params.nmax → exec (.parse idx) s = .next t →
    ((∃ d ∈ Nat.digits 10 (s.polyRaw.getD idx.toNat 0#32).toNat, 7 < d) →
      (t.err, t.errInfo) = (1#3, BitVec.ofNat 32 (idx.toNat + 0x10000))) ∧
    ((∀ d ∈ Nat.digits 10 (s.polyRaw.getD idx.toNat 0#32).toNat, d ≤ 7) → (t.err, t.errInfo) = (0#3, 0#32))) ∧
  (∀ (k n : BitVec 8) (s t : State), exec (.config k n) s = .next t →
    ((k.toNat < 2 ∨ s.params.kmax < k.toNat) → (t.err, t.errInfo) = (2#3, 1#32)) ∧
    (2 ≤ k.toNat ∧ k.toNat ≤ s.params.kmax → n.toNat < 1 ∨ s.params.nmax < n.toNat →
      (t.err, t.errInfo) = (2#3, 2#32)))

/-- The model stops only at a turn of the HOST's that the spec tells a model to refuse (R56 to R58, R77, R80, R210, R240):
the CORE's turn, a reset and the idle block always go on (R220, R243). -/
def Obligations.OnlyHostTurnsAreRefused : Prop :=
  ∀ (s : State) (r : Refusal), step s = .refused r →
    (∀ m, r ≠ .notModelled m) ∧
    ((∃ a rest, s.agenda = .access a :: rest) ∨ (∃ c rest, s.agenda = .stmt c :: rest))

/-- No command changes ILEN, IBUF, POLY_RAW, the parameters or what the model keeps of the HOST; every byte of IBUF reads
as before (R37, R43, R51, R233). PARSE, CONFIG and ENCRST leave OLEN and every bit of OBUF (R38). -/
def Obligations.CommandsKeepTheirInput : Prop :=
  (∀ (i : Instr) (s t : State), exec i s = .next t →
    t.ilen = s.ilen ∧ t.ibuf = s.ibuf ∧ (∀ a, ibufByte t a = ibufByte s a) ∧ (∀ n, ibufBit t n = ibufBit s n) ∧
    t.polyRaw = s.polyRaw ∧ t.params = s.params ∧ t.hostWaits = s.hostWaits ∧ t.hostReads = s.hostReads ∧
    t.agenda = s.agenda) ∧
  (∀ (i : Instr) (s t : State), exec i s = .next t →
    (i = .encrst ∨ (∃ idx, i = .parse idx) ∨ (∃ k n, i = .config k n)) →
      t.olen = s.olen ∧ t.obuf = s.obuf ∧ (∀ n, obufBit t n = obufBit s n))

/-! ### PARSE and CONFIG -/

/-- R101 and R111: a digit 8 or 9 makes the parser fail; otherwise the mask is the decimal digit string read as an octal
number. The largest mask is 0x22FFFFFF, that of 4277777777, so every mask is below `2^30`. -/
def Obligations.PolyParseReadsDecimalDigitsAsOctal : Prop :=
  (∀ v : Word, (∃ d ∈ Nat.digits 10 v.toNat, 7 < d) → polyParse v = none) ∧
  (∀ v : Word, (∀ d ∈ Nat.digits 10 v.toNat, d ≤ 7) →
    polyParse v = some (Nat.ofDigits 8 (Nat.digits 10 v.toNat))) ∧
  polyParse 4277777777#32 = some 0x22FFFFFF ∧
  (∀ (v : Word) (m : Nat), polyParse v = some m → m ≤ 0x22FFFFFF ∧ m < 2 ^ 30)

/-- R104: PARSE writes the mask of POLY_RAW[idx] (the digit string read as octal) to PARSE_RESULT and nothing else, or
ends with InvalidPolynomial. -/
def Obligations.ParseWritesTheMask : Prop :=
  ∀ (s : State) (idx : BitVec 8), idx.toNat < s.params.nmax →
    ((∀ d ∈ Nat.digits 10 (s.polyRaw.getD idx.toNat 0#32).toNat, d ≤ 7) →
      exec (.parse idx) s = .next (completed { s with
        parseResult := BitVec.ofNat 32 (Nat.ofDigits 8 (Nat.digits 10 (s.polyRaw.getD idx.toNat 0#32).toNat)) }
        0#3 0#32)) ∧
    ((∃ d ∈ Nat.digits 10 (s.polyRaw.getD idx.toNat 0#32).toNat, 7 < d) →
      exec (.parse idx) s = .next (completed s 1#3 (BitVec.ofNat 32 (idx.toNat ||| (1 <<< 16)))))

/-- R106: CONFIG with `k` outside `2..KMAX`, or else with `n` outside `1..NMAX`, ends with InvalidConfiguration and
ERR_INFO 1 or 2, `k` checked first. -/
def Obligations.ConfigRefusesOperandsOutOfRange : Prop :=
  ∀ (s : State) (k n : BitVec 8),
    (k.toNat < 2 ∨ s.params.kmax < k.toNat → exec (.config k n) s = .next (completed s 2#3 1#32)) ∧
    (2 ≤ k.toNat → k.toNat ≤ s.params.kmax → n.toNat < 1 ∨ s.params.nmax < n.toNat →
      exec (.config k n) s = .next (completed s 2#3 2#32))

/-- R107: CONFIG reports the first polynomial that fails, for a bad digit before a mask too wide for `k`. -/
def Obligations.ConfigReportsTheFirstBadPolynomial : Prop :=
  ∀ (s : State) (k n : BitVec 8) (j : Nat), s.polyRaw.length = s.params.nmax →
    2 ≤ k.toNat → k.toNat ≤ s.params.kmax → n.toNat ≤ s.params.nmax → j < n.toNat →
    (∀ i, i < j → ∃ m, polyParse (s.polyRaw.getD i 0#32) = some m ∧ m < 2 ^ k.toNat) →
      (polyParse (s.polyRaw.getD j 0#32) = none →
        exec (.config k n) s = .next (completed s 1#3 (BitVec.ofNat 32 (j ||| 0x10000)))) ∧
      (∀ m, polyParse (s.polyRaw.getD j 0#32) = some m → 2 ^ k.toNat ≤ m →
        exec (.config k n) s = .next (completed s 1#3 (BitVec.ofNat 32 (j ||| 0x20000))))

/-- R108: when every check passes CONFIG writes CFG_K, CFG_N, all of POLY_MASK, ENC_REG = 0 and CFG_VALID = 1, and nothing
else. -/
def Obligations.ConfigCommitsTheConfiguration : Prop :=
  ∀ (s : State) (k n : BitVec 8), s.polyRaw.length = s.params.nmax → s.params.kmax ≤ 31 →
    2 ≤ k.toNat → k.toNat ≤ s.params.kmax → 1 ≤ n.toNat → n.toNat ≤ s.params.nmax →
    (∀ j, j < n.toNat → ∃ m, polyParse (s.polyRaw.getD j 0#32) = some m ∧ m < 2 ^ k.toNat) →
      ∃ t : State, exec (.config k n) s = .next t ∧
        t = completed { s with cfgK := k, cfgN := n, polyMask := t.polyMask, encReg := 0#32, cfgValid := true }
          0#3 0#32 ∧
        t.polyMask.length = s.params.nmax ∧
        (∀ j, j < n.toNat → polyParse (s.polyRaw.getD j 0#32) = some (t.polyMask.getD j 0#32).toNat) ∧
        (∀ j, n.toNat ≤ j → t.polyMask.getD j 0#32 = 0#32)

/-- The configuration changes only when CONFIG runs, or at a reset (R110, R246, R230): a step of any other command, of the
HOST or of its program leaves CFG_K, CFG_N and POLY_MASK. -/
def Obligations.OnlyConfigAndResetChangeTheConfiguration : Prop :=
  ∀ s t : State, step s = .next t →
    (∃ rest, s.agenda = .reset :: rest) ∨
    (∃ w k n, s.inFlight = some w ∧ decode s.params w = .ok (.config k n) ∧
      (s.agenda = [] ∨ ∃ rest, s.agenda = .core :: rest)) ∨
    (t.cfgK = s.cfgK ∧ t.cfgN = s.cfgN ∧ t.polyMask = s.polyMask ∧ t.cfgValid = s.cfgValid)

/-- R34: CFG_VALID is 0 after reset; a successful CONFIG sets it; only a reset clears it; a failed CONFIG leaves it; and
while it is 0, ENCODE, DECODE and TURBO end with InvalidConfiguration. -/
def Obligations.CfgValidRisesAtConfigAndFallsAtReset : Prop :=
  State.reset.cfgValid = false ∧
  (∀ (k n : BitVec 8) (s t : State), exec (.config k n) s = .next t →
    (t.err = 0#3 → t.cfgValid = true) ∧ (t.err ≠ 0#3 → t.cfgValid = s.cfgValid)) ∧
  (∀ s t : State, step s = .next t → s.cfgValid = true →
    (∃ rest, s.agenda = .reset :: rest) ∨ t.cfgValid = true) ∧
  (∀ (i : Instr) (s : State), i = .encode ∨ i = .decode ∨ i = .turbo → s.cfgValid = false →
    exec i s = .next (completed s 2#3 3#32))

/-! ### The encoder -/

/-- R124: ENCRST sets ENC_REG to 0, ERR and ERR_INFO to 0, and nothing else. -/
def Obligations.EncrstClearsTheEncoderRegister : Prop :=
  ∀ s : State, exec .encrst s = .next (completed { s with encReg := 0#32 } 0#3 0#32)

/-- ENCODE in closed form (R129), and its OLEN and what it leaves (R125): every output bit, the register after every input bit, and the last register, in
closed form; nothing but OBUF, OLEN and ENC_REG changes. -/
def Obligations.EncodeClosedForm : Prop :=
  ∀ s : State, s.Inv → s.cfgValid = true → s.ilen.toNat ≤ s.params.lmax →
    ∃ t : State, exec .encode s = .next t ∧
      t = completed { s with obuf := t.obuf, olen := t.olen, obufEra := t.obufEra, encReg := t.encReg } 0#3 0#32 ∧
      t.olen.toNat = s.ilen.toNat * s.cfgN.toNat ∧
      (∀ q j, q < s.ilen.toNat → j < s.cfgN.toNat → t.obuf[q * s.cfgN.toNat + j]? = some (encodedBit s q j)) ∧
      (∀ q i, q < s.ilen.toNat → i < s.cfgK.toNat - 1 →
        (shiftIn (s.cfgK.toNat - 1) s.encReg.toNat ((inputBits s).take (q + 1))).testBit i =
          regBit (ibufBit s) s.encReg.toNat q i) ∧
      (1 ≤ s.ilen.toNat → t.encReg.toNat =
        ((List.range (s.cfgK.toNat - 1)).map
          (fun i => (regBit (ibufBit s) s.encReg.toNat (s.ilen.toNat - 1) i).toNat <<< i)).sum) ∧
      (s.ilen.toNat = 0 → t.encReg = s.encReg)

/-- R126: ENCODE of `B` and then of `C`, with the register as the first left it, writes in the second command what one
ENCODE of `B ++ C` writes after the output of `B`, and both end with the same ENC_REG. -/
def Obligations.EncodeContinuesTheStream : Prop :=
  ∀ sb sc su tb tc tu : State,
    sb.cfgK = su.cfgK → sb.cfgN = su.cfgN → sb.polyMask = su.polyMask → sb.encReg = su.encReg →
    sc.cfgK = su.cfgK → sc.cfgN = su.cfgN → sc.polyMask = su.polyMask →
    inputBits su = inputBits sb ++ inputBits sc → su.cfgK.toNat ≤ 31 →
    exec .encode sb = .next tb → tb.err = 0#3 → sc.encReg = tb.encReg →
    exec .encode sc = .next tc → tc.err = 0#3 → exec .encode su = .next tu → tu.err = 0#3 →
      tu.obuf = tb.obuf ++ tc.obuf ∧ tu.encReg = tc.encReg

/-- R127: the rate law. -/
def Obligations.EncodeRateLaw : Prop :=
  ∀ s t : State, s.Inv → exec .encode s = .next t → t.err = 0#3 →
    t.olen.toNat = s.ilen.toNat * s.cfgN.toNat ∧ t.obuf.length = s.ilen.toNat * s.cfgN.toNat ∧
    t.olen.toNat ≤ s.params.lmax * s.params.nmax ∧ s.params.lmax * s.params.nmax < s.params.omax

/-- Only mask bits `0 .. K-2` influence an output (R128): ENCODE with every mask cut to `K - 1` bits writes the same. -/
def Obligations.TopMaskBitIsDead : Prop :=
  ∀ s t : State, s.Inv → s.cfgValid = true → exec .encode s = .next t →
    exec .encode { s with
        polyMask := s.polyMask.map (fun m => m &&& BitVec.ofNat 32 (2 ^ (s.cfgK.toNat - 1) - 1)) } =
      .next { t with
        polyMask := s.polyMask.map (fun m => m &&& BitVec.ofNat 32 (2 ^ (s.cfgK.toNat - 1) - 1)) }

/-- ENC_REG belongs to CONFIG, ENCRST and ENCODE (R41, R157, R180): every other command neither writes it nor lets its
value reach anything else. -/
def Obligations.OtherCommandsNeitherReadNorWriteEncReg : Prop :=
  ∀ (i : Instr) (s t : State) (r : Word),
    i ≠ .encode → i ≠ .encrst → (∀ k n, i ≠ .config k n) → exec i s = .next t →
      t.encReg = s.encReg ∧ exec i { s with encReg := r } = .next { t with encReg := r }

/-! ### The decoder -/

/-- R154: one step of add-compare-select, destination by destination: the two predecessors, the common branch metric, and
the lower predecessor winning a tie. -/
def Obligations.AcsPerDestination : Prop :=
  (∀ w s b, 1 ≤ w → (encStep w s b).testBit 0 = b) ∧
  (∀ w s b d, 1 ≤ w → s < 2 ^ w → d < 2 ^ w →
    (encStep w s b = d ↔ (s = d >>> 1 ∨ s = (d >>> 1 ||| 2 ^ (w - 1))) ∧ b = d.testBit 0)) ∧
  (∀ (w : Nat) (masks : List Nat) (rx : Bits) (pm : List (Option Nat)) (d : Nat),
    1 ≤ w → pm.length = 2 ^ w → d < 2 ^ w →
      (acs w masks rx pm).getD d none =
        match pm.getD (d >>> 1) none, pm.getD (d >>> 1 ||| 2 ^ (w - 1)) none with
        | none, none => none
        | some m0, none =>
          some ⟨m0 + hammingDistance (outGroup masks d) rx, d >>> 1, d.testBit 0⟩
        | none, some m1 =>
          some ⟨m1 + hammingDistance (outGroup masks d) rx, d >>> 1 ||| 2 ^ (w - 1), d.testBit 0⟩
        | some m0, some m1 =>
          if m0 ≤ m1 then some ⟨m0 + hammingDistance (outGroup masks d) rx, d >>> 1, d.testBit 0⟩
          else some ⟨m1 + hammingDistance (outGroup masks d) rx, d >>> 1 ||| 2 ^ (w - 1), d.testBit 0⟩)

/-- R149: after the steps of `T` groups exactly the states below `2^min(T, K-1)` are reachable, so state 0 always is. -/
def Obligations.ReachableTrellisStates : Prop :=
  ∀ (w : Nat) (masks : List Nat) (groups : List Bits) (d : Nat), d < 2 ^ w →
    (((trellisOf w masks groups).1.getD d none).isSome = true ↔ d < 2 ^ min groups.length w)

/-- R153: after step `t` every finite metric is at most `t * N`, and fits MW bits. -/
def Obligations.MetricsNeverOverflow : Prop :=
  ∀ (s : State) (T d m : Nat), s.Inv → s.cfgValid = true → s.ilen.toNat ≤ s.params.lmax →
    T ≤ s.ilen.toNat / s.cfgN.toNat →
    (trellisOf (s.cfgK.toNat - 1) (tapMasks s) ((receivedGroups s).take T)).1.getD d none = some m →
      m ≤ T * s.cfgN.toNat ∧ m < 2 ^ s.params.mw

/-- R150: the final state has the smallest metric among the reachable states, ties going to the smallest state number; it
is 0 when there is no step. -/
def Obligations.FinalStateIsTheLeastBest : Prop :=
  (∀ (pm : List (Option Nat)) (d m : Nat), pm.getD d none = some m →
    ∃ best, pm.getD (finalState pm) none = some best ∧ best ≤ m ∧ (best = m → finalState pm ≤ d)) ∧
  (∀ w, finalState (startMetrics w) = 0)

/-- R151: every back-pointer the traceback reads is defined, the walk ends at state 0, and there are exactly `L/n` decoded
bits. -/
def Obligations.TracebackIsDefinedAndEndsAtZero : Prop :=
  ∀ (w : Nat) (masks : List Nat) (groups : List Bits),
    backWalk (trellisOf w masks groups).2 (finalState (trellisOf w masks groups).1) = some 0 ∧
    (viterbi w masks groups).length = groups.length

/-- DECODE performs maximum-likelihood sequence estimation (R2, R143 to R152): it returns the survivor path's sequence, the
one that `AcsPerDestination`, `FinalStateIsTheLeastBest` and `TracebackIsDefinedAndEndsAtZero` are about and that decides
among equally near ones; the codeword of what it returns is at least as near to the received sequence, in Hamming
distance, as the codeword of any sequence of that length; nothing but OBUF and OLEN changes. -/
def Obligations.DecodeIsMaximumLikelihood : Prop :=
  ∀ s : State, s.Inv → s.cfgValid = true → s.ilen.toNat ≤ s.params.lmax → s.ilen.toNat % s.cfgN.toNat = 0 →
    ∃ t : State, exec .decode s = .next t ∧
      t = completed { s with obuf := t.obuf, olen := t.olen, obufEra := t.obufEra } 0#3 0#32 ∧
      t.olen.toNat = s.ilen.toNat / s.cfgN.toNat ∧ t.obuf.length = s.ilen.toNat / s.cfgN.toNat ∧
      t.obuf = viterbi (s.cfgK.toNat - 1) (tapMasks s) (receivedGroups s) ∧
      (∀ B : Bits, B.length = s.ilen.toNat / s.cfgN.toNat →
        hammingDistance (codeword (s.cfgK.toNat - 1) (tapMasks s) 0 t.obuf) (inputBits s) ≤
          hammingDistance (codeword (s.cfgK.toNat - 1) (tapMasks s) 0 B) (inputBits s))

/-- The round trip (R155, with the condition of C5; log entry 20 says how the rule is read): ENCODE from ENC_REG = 0, then
DECODE of its output under the same configuration, returns the message when some mask has bit 0 set; when none has, the
last decoded bit is 0. -/
def Obligations.RoundTrip : Prop :=
  ∀ se te sd : State, se.Inv → sd.Inv → sd.cfgValid = true →
    se.encReg = 0#32 → exec .encode se = .next te → te.err = 0#3 →
    sd.cfgK = se.cfgK → sd.cfgN = se.cfgN → sd.polyMask = se.polyMask →
    sd.ilen.toNat ≤ sd.params.lmax → inputBits sd = te.obuf →
      ∃ td : State, exec .decode sd = .next td ∧ td.err = 0#3 ∧
        ((∃ j, j < se.cfgN.toNat ∧ maskBit se j 0 = true) → td.obuf = inputBits se) ∧
        ((∀ j, j < se.cfgN.toNat → maskBit se j 0 = false) → 1 ≤ se.ilen.toNat →
          td.obuf.getLast? = some false)

/-- R156: with K = 3 and masks [7, 5], one flipped bit is corrected, unless it lies in the last group and the last message
bit is 1; then the last decoded bit is 0 and every other bit is right. -/
def Obligations.SingleFlipIsCorrected : Prop :=
  ∀ (s : State) (B : Bits) (p : Nat), s.cfgValid = true → s.cfgK = 3#8 → s.cfgN = 2#8 →
    s.polyMask.take 2 = [7#32, 5#32] → s.ilen.toNat ≤ s.params.lmax → p < 2 * B.length →
    inputBits s = flipAt (codeword 2 [7, 5] 0 B) p →
      ∃ t : State, exec .decode s = .next t ∧ t.err = 0#3 ∧
        t.obuf = if 2 * B.length - 2 ≤ p ∧ B.getLast? = some true then B.dropLast ++ [false] else B

/-! ### The interleaver -/

/-- R173: the position map is a bijection of `0..len-1` exactly when `len` is not a multiple of 7; then the output is a
permutation of the input, and the inverse is as given. -/
def Obligations.PositionMapIsABijectionOffMultiplesOfSeven : Prop :=
  ∀ len : Nat, 0 < len →
    ((∀ i j, i < len → j < len → newPosition i len = newPosition j len → i = j) ↔ len % 7 ≠ 0) ∧
    (∀ i, newPosition i len < len) ∧
    (len % 7 ≠ 0 →
      (∀ p, p < len → ∃ i, i < len ∧ newPosition i len = p) ∧
      (∀ bits : Bits, bits.length = len →
        (interleave bits).Perm bits ∧ (interleave bits).count true = bits.count true) ∧
      (∀ u i : Nat, 7 * u % len = 1 % len → i < len →
        (((newPosition i len : Int) - 5) * (u : Int)) % (len : Int) = (i : Int)))

/-- INTLV off the multiples of 7 (R170, R171, R174): input bit `i` goes to output position `(7i + 5) mod len`, OLEN is ILEN,
and nothing else changes; an empty input gives an empty output. -/
def Obligations.IntlvScattersTheInput : Prop :=
  ∀ s : State, s.ilen.toNat ≤ s.params.lmax → s.ilen.toNat % 7 ≠ 0 ∨ s.ilen.toNat = 0 →
    ∃ t : State, exec .intlv s = .next t ∧
      t = completed { s with obuf := t.obuf, olen := s.ilen, obufEra := t.obufEra } 0#3 0#32 ∧
      t.obuf.length = s.ilen.toNat ∧
      (∀ i, i < s.ilen.toNat → t.obuf[(i * 7 + 5) % s.ilen.toNat]? = some (ibufBit s i))

/-- Positive multiples of 7 (R172): with FAULT, INTLV and TURBO end with InvalidInputLength; with ZERO_FILL_LAST_WINS a
position holds the input bit of the largest index that maps to it, and 0 when none does. -/
def Obligations.IntlvAtMultiplesOfSeven : Prop :=
  ∀ s : State, s.ilen.toNat ≤ s.params.lmax → s.ilen.toNat % 7 = 0 → s.ilen.toNat ≠ 0 →
    (s.params.ilCollide = .fault →
      exec .intlv s = .next (completed s 3#3 s.ilen) ∧
      (s.cfgValid = true → exec .turbo s = .next (completed s 3#3 s.ilen))) ∧
    (s.params.ilCollide = .zeroFillLastWins →
      ∃ t : State, exec .intlv s = .next t ∧
        t = completed { s with obuf := t.obuf, olen := s.ilen, obufEra := t.obufEra } 0#3 0#32 ∧
        t.obuf.length = s.ilen.toNat ∧
        (∀ i, i < s.ilen.toNat →
          (∀ i', i < i' → i' < s.ilen.toNat → (i' * 7 + 5) % s.ilen.toNat ≠ (i * 7 + 5) % s.ilen.toNat) →
            t.obuf[(i * 7 + 5) % s.ilen.toNat]? = some (ibufBit s i)) ∧
        (∀ p, p < s.ilen.toNat → (∀ i, i < s.ilen.toNat → (i * 7 + 5) % s.ilen.toNat ≠ p) →
          t.obuf[p]? = some false))

/-! ### The turbo encoder -/

/-- TURBO (R180 to R184): the systematic bits, the parity of the input, and the parity of the interleaved input (which is
what INTLV writes), each in closed form for a register of two bits; the last values of TREG1 and TREG2; nothing else
changes, ENC_REG among it. -/
def Obligations.TurboStreams : Prop :=
  ∀ s : State, s.Inv → s.cfgValid = true → s.ilen.toNat ≤ s.params.lmax →
    (s.ilen.toNat % 7 ≠ 0 ∨ s.ilen.toNat = 0 ∨ s.params.ilCollide = .zeroFillLastWins) →
    ∃ u t : State, exec .intlv s = .next u ∧ exec .turbo s = .next t ∧
      t = completed { s with
        obuf := t.obuf, olen := t.olen, obufEra := t.obufEra, treg1 := t.treg1, treg2 := t.treg2 } 0#3 0#32 ∧
      t.olen.toNat = s.ilen.toNat * (1 + 2 * s.cfgN.toNat) ∧
      t.obuf.length = s.ilen.toNat * (1 + 2 * s.cfgN.toNat) ∧
      (∀ i, i < s.ilen.toNat → t.obuf[i]? = some (ibufBit s i)) ∧
      (∀ q j, q < s.ilen.toNat → j < s.cfgN.toNat →
        t.obuf[s.ilen.toNat + q * s.cfgN.toNat + j]? = some (turboParity s (ibufBit s) q j)) ∧
      (∀ q j, q < s.ilen.toNat → j < s.cfgN.toNat →
        t.obuf[s.ilen.toNat + s.ilen.toNat * s.cfgN.toNat + q * s.cfgN.toNat + j]? =
          some (turboParity s (fun i => u.obuf.getD i false) q j)) ∧
      (s.ilen.toNat = 0 → t.treg1 = 0#2 ∧ t.treg2 = 0#2) ∧
      (1 ≤ s.ilen.toNat →
        t.treg1.getLsbD 0 = ibufBit s (s.ilen.toNat - 1) ∧
        t.treg1.getLsbD 1 = (decide (2 ≤ s.ilen.toNat) && ibufBit s (s.ilen.toNat - 2)) ∧
        t.treg2.getLsbD 0 = u.obuf.getD (s.ilen.toNat - 1) false ∧
        t.treg2.getLsbD 1 = (decide (2 ≤ s.ilen.toNat) && u.obuf.getD (s.ilen.toNat - 2) false))

/-- R185: the laws of a successful TURBO. -/
def Obligations.TurboLaws : Prop :=
  ∀ s t : State, s.Inv → exec .turbo s = .next t → t.err = 0#3 →
    t.olen.toNat = s.ilen.toNat * (1 + 2 * s.cfgN.toNat) ∧
    t.obuf.take s.ilen.toNat = inputBits s ∧
    (s.cfgK = 3#8 → ∃ u : State, exec .encode { s with encReg := 0#32 } = .next u ∧ u.err = 0#3 ∧
      (t.obuf.drop s.ilen.toNat).take (s.ilen.toNat * s.cfgN.toNat) = u.obuf)

/-- R181: TURBO sets TREG1 and TREG2 to 0 first, so its result depends only on the input sequence and the configuration:
states that agree on those give the same output, output length and registers. -/
def Obligations.TurboDependsOnlyOnInputAndConfiguration : Prop :=
  ∀ s s' t t' : State,
    inputBits s' = inputBits s → s'.ilen = s.ilen → s'.cfgN = s.cfgN → s'.polyMask = s.polyMask →
    exec .turbo s = .next t → t.err = 0#3 → exec .turbo s' = .next t' → t'.err = 0#3 →
      t'.obuf = t.obuf ∧ t'.olen = t.olen ∧ t'.treg1 = t.treg1 ∧ t'.treg2 = t.treg2

/-! ### Noninterference and the buffers -/

/-- Bits of IBUF at or above ILEN never influence a result (R67): two states that differ only there, and in the free value
that unstored bits read as, run every command alike. -/
def Obligations.BitsAboveIlenNeverInfluenceAResult : Prop :=
  ∀ (i : Instr) (s t : State) (m : Memory) (era : Nat),
    (∀ n, n < s.ilen.toNat → ibufBit { s with ibuf := m, ibufEra := era } n = ibufBit s n) →
    exec i s = .next t →
      exec i { s with ibuf := m, ibufEra := era } = .next { t with ibuf := m, ibufEra := era }

/-- After a successful data command OBUF holds the result below OLEN, and every bit above it is drawn anew; an error changes
no bit of OBUF (R67, R207, R244). -/
def Obligations.OutputBufferAfterADataCommand : Prop :=
  ∀ (i : Instr) (s t : State), s.Inv → i = .encode ∨ i = .decode ∨ i = .intlv ∨ i = .turbo → exec i s = .next t →
    (t.err = 0#3 → t.obuf.length = t.olen.toNat ∧ t.olen.toNat ≤ t.params.omax ∧ t.obufEra ≠ s.obufEra ∧
      (∀ n, n < t.olen.toNat → t.obuf[n]? = some (obufBit t n)) ∧
      (∀ n, t.olen.toNat ≤ n → t.obuf[n]? = none)) ∧
    (t.err ≠ 0#3 → ∀ n, obufBit t n = obufBit s n)

/-- LOADBITS (R80): from a state in which the HOST need not wait, the statement's expansion, one write a word and the write
of ILEN leave exactly the given bits as the input sequence. That there may be no bit at all is the model's choice (log
entry 22). -/
def Obligations.LoadbitsGivesTheInputSequence : Prop :=
  ∀ (s : State) (bs : Bits) (rest : List Turn), s.params.Legal → s.hostWaits = false → bs.length ≤ s.params.lmax →
    ∃ t : State,
      Host.Core.run core ((bs.length + 31) / 32 + 2) { s with agenda := .stmt (.loadbits bs) :: rest } = .next t ∧
      t = { s with agenda := rest, ibuf := t.ibuf, ilen := t.ilen } ∧
      t.ilen.toNat = bs.length ∧ inputBits t = bs

/-- COPYOUT (R80, R247): from a state in which the HOST need not wait, and with OLEN at most LMAX, IBUF then holds the
result and ILEN its length. -/
def Obligations.CopyoutMakesTheResultTheInput : Prop :=
  ∀ (s : State) (rest : List Turn), s.Inv → s.hostWaits = false → s.olen.toNat ≤ s.params.lmax →
    ∃ t : State,
      Host.Core.run core (2 * ((s.olen.toNat + 31) / 32) + 3) { s with agenda := .stmt .copyout :: rest } = .next t ∧
      t = { s with agenda := rest, ibuf := t.ibuf, ilen := s.olen, hostReads := t.hostReads } ∧
      inputBits t = s.obuf

/-! ### The invariant -/

/-- The state after reset meets the invariant of the model. -/
def Obligations.ResetMeetsTheInvariant : Prop := State.reset.Inv

/-- Every step keeps the invariant of the model: legal parameters, register files of NMAX entries, the canonical store, OBUF
of OLEN bits within OMAX, PARSE_RESULT below `2^30`, ERR a code that is produced, BUSY exactly while a command is in
progress, and a configuration that CONFIG can write, or none. -/
def Obligations.EveryStepKeepsTheInvariant : Prop :=
  ∀ s t : State, s.Inv → step s = .next t → t.Inv
end

