-- ==== Sys2Proof/Laws/Bits.lean ====
section
/-! SUPPORT. The shift register and the codeword: the step as arithmetic, bounds, lengths, and concatenation. -/

namespace Sys2Proof.Machine

/-- The step of R121 as arithmetic: shift in one bit, and drop what is above the register. -/
theorem encStep_eq_mod (w reg : Nat) (b : Bool) : encStep w reg b = (2 * reg + b.toNat) % 2 ^ w := by
  have h : reg <<< 1 ||| b.toNat = 2 * reg + b.toNat := by
    rw [← Nat.shiftLeft_add_eq_or_of_lt (by cases b <;> decide), Nat.shiftLeft_eq, pow_one, Nat.mul_comm]
  rw [encStep, h, mask, Nat.and_two_pow_sub_one_eq_mod]

theorem encStep_lt (w reg : Nat) (b : Bool) : encStep w reg b < 2 ^ w := by
  rw [encStep_eq_mod]; exact Nat.mod_lt _ (by positivity)

@[simp] theorem outGroup_length (masks : List Nat) (reg : Nat) : (outGroup masks reg).length = masks.length := by
  simp [outGroup]

@[simp] theorem codeword_length (w : Nat) (masks : List Nat) (reg : Nat) (bs : Bits) :
    (codeword w masks reg bs).length = bs.length * masks.length := by
  induction bs generalizing reg with
  | nil => simp [codeword]
  | cons b bs ih => simp [codeword, ih, Nat.succ_mul, Nat.add_comm]

@[simp] theorem shiftIn_nil (w reg : Nat) : shiftIn w reg [] = reg := rfl

@[simp] theorem shiftIn_cons (w reg : Nat) (b : Bool) (bs : Bits) :
    shiftIn w reg (b :: bs) = shiftIn w (encStep w reg b) bs := rfl

theorem shiftIn_append (w reg : Nat) (bs cs : Bits) : shiftIn w reg (bs ++ cs) = shiftIn w (shiftIn w reg bs) cs := by
  simp [shiftIn, List.foldl_append]

/-- The codeword of a concatenation: the second part starts from the register the first part leaves. -/
theorem codeword_append (w : Nat) (masks : List Nat) (reg : Nat) (bs cs : Bits) :
    codeword w masks reg (bs ++ cs) = codeword w masks reg bs ++ codeword w masks (shiftIn w reg bs) cs := by
  induction bs generalizing reg with
  | nil => rfl
  | cons b bs ih => simp [codeword, ih]

theorem shiftIn_lt {w reg : Nat} (h : reg < 2 ^ w) (bs : Bits) : shiftIn w reg bs < 2 ^ w := by
  induction bs generalizing reg with
  | nil => exact h
  | cons b bs ih => exact ih (encStep_lt w reg b)

theorem hammingDistance_le (a b : Bits) : hammingDistance a b ≤ a.length := by
  refine le_trans List.countP_le_length ?_
  simp

@[simp] theorem hammingDistance_self (a : Bits) : hammingDistance a a = 0 := by
  induction a with
  | nil => rfl
  | cons x xs ih => simp [hammingDistance] at ih ⊢

end Sys2Proof.Machine
end

