-- ==== Sys2Proof/Laws/PerInstr.lean ====
section
/-! SUPPORT. Said of every command: where its word has bits (R71). -/

namespace Sys2Proof.Laws.Encoding

/-- OP of a command's row (R73). -/
def opOf : Instr → Nat
  | .parse _ => 1
  | .config _ _ => 2
  | .encrst => 3
  | .encode => 4
  | .decode => 5
  | .intlv => 6
  | .turbo => 7

/-- The operands of a command as the numbers in K, N and IDX (R71, R72). -/
def operandsOf : Instr → Nat × Nat × Nat
  | .parse idx => (0, 0, idx.toNat)
  | .config k n => (k.toNat, n.toNat, 0)
  | .encrst => (0, 0, 0)
  | .encode => (0, 0, 0)
  | .decode => (0, 0, 0)
  | .intlv => (0, 0, 0)
  | .turbo => (0, 0, 0)

/-- A command's word is OP in bits 31:28, 0 in RSV, and its operands in K, N and IDX; an unused field is 0 (R71, R77). -/
def Statement (i : Instr) : Prop :=
  (encode i).toNat =
    opOf i * 2 ^ 28 + (operandsOf i).1 * 2 ^ 16 + (operandsOf i).2.1 * 2 ^ 8 + (operandsOf i).2.2

theorem or_eq_add {a b : Nat} (k : Nat) (hb : b < 2 ^ k) : (a * 2 ^ k) ||| b = a * 2 ^ k + b := by
  have := Nat.shiftLeft_add_eq_or_of_lt hb a
  rw [Nat.shiftLeft_eq] at this
  exact this.symm

theorem parse (idx : BitVec 8) : Statement (.parse idx) := by
  have h := idx.isLt
  have := or_eq_add (a := 0x100000) 8 (b := idx.toNat) h
  simp only [Statement, encode, opOf, operandsOf, BitVec.toNat_or, BitVec.toNat_setWidth, BitVec.toNat_ofNat]
  rw [Nat.mod_eq_of_lt (a := idx.toNat) (by omega)]
  norm_num at this ⊢
  exact this

theorem config (k n : BitVec 8) : Statement (.config k n) := by
  have hk := k.isLt
  have hn := n.isLt
  have e3 : (0x20000000 : Nat) ||| k.toNat * 2 ^ 16 = (0x2000 + k.toNat) * 2 ^ 16 := by
    have := or_eq_add (a := 0x20) 24 (b := k.toNat * 2 ^ 16) (by omega)
    norm_num at this ⊢
    omega
  have e4 := or_eq_add (a := 0x2000 + k.toNat) 16 (b := n.toNat * 2 ^ 8) (by omega)
  simp only [Statement, encode, opOf, operandsOf, BitVec.toNat_or, BitVec.toNat_shiftLeft, BitVec.toNat_setWidth,
    BitVec.toNat_ofNat, Nat.shiftLeft_eq]
  rw [Nat.mod_eq_of_lt (a := k.toNat) (by omega), Nat.mod_eq_of_lt (a := n.toNat) (by omega),
    Nat.mod_eq_of_lt (a := k.toNat * 2 ^ 16) (by omega), Nat.mod_eq_of_lt (a := n.toNat * 2 ^ 8) (by omega)]
  norm_num at e3 e4 ⊢
  rw [e3, e4]
  omega

theorem encrst : Statement .encrst := rfl

theorem encode : Statement .encode := rfl

theorem decode : Statement .decode := rfl

theorem intlv : Statement .intlv := rfl

theorem turbo : Statement .turbo := rfl

end Sys2Proof.Laws.Encoding
end

