-- ==== Sys2Proof/Laws/Decode.lean ====
section
/-! SUPPORT. The fields of a command word as arithmetic on the word (R71, R72). -/

namespace Sys2Proof

theorem opField_toNat (w : Word) : (opField w).toNat = w.toNat / 2 ^ 28 := by
  have := w.isLt
  simp only [opField, BitVec.extractLsb'_toNat, Nat.shiftRight_eq_div_pow]
  omega

theorem rsvField_toNat (w : Word) : (rsvField w).toNat = w.toNat / 2 ^ 24 % 16 := by
  simp [rsvField, BitVec.extractLsb'_toNat, Nat.shiftRight_eq_div_pow]

theorem kField_toNat (w : Word) : (kField w).toNat = w.toNat / 2 ^ 16 % 256 := by
  simp [kField, BitVec.extractLsb'_toNat, Nat.shiftRight_eq_div_pow]

theorem nField_toNat (w : Word) : (nField w).toNat = w.toNat / 2 ^ 8 % 256 := by
  simp [nField, BitVec.extractLsb'_toNat, Nat.shiftRight_eq_div_pow]

theorem idxField_toNat (w : Word) : (idxField w).toNat = w.toNat % 256 := by
  simp [idxField, BitVec.extractLsb'_toNat]

/-- K and N together, which PARSE does not use (R74). -/
theorem unusedByParse_toNat (w : Word) : (w.extractLsb' 8 16).toNat = w.toNat / 2 ^ 8 % 2 ^ 16 := by
  simp [BitVec.extractLsb'_toNat, Nat.shiftRight_eq_div_pow]

/-- Every bit below OP but RSV, which format Z does not use (R74). -/
theorem unusedByZ_toNat (w : Word) : (w.extractLsb' 0 24).toNat = w.toNat % 2 ^ 24 := by
  simp [BitVec.extractLsb'_toNat]

/-- A field is not 0 exactly if its number is not 0. -/
theorem field_ne_zero_iff {n : Nat} (x : BitVec n) : x ≠ 0#n ↔ x.toNat ≠ 0 := by
  rw [Ne, BitVec.toNat_eq]; simp

end Sys2Proof
end

