-- ==== Sys2Proof/Laws/Memory.lean ====
section
/-! SUPPORT. The store: read after write, and the canonical form that every operation keeps. -/

namespace Sys2Proof.Machine

theorem Memory.get?_put_same (m : Memory) (a : Nat) (v : Byte) : (m.put a v).get? a = some v := by
  induction m with
  | nil => simp [Memory.put, Memory.get?]
  | cons c rest ih =>
    obtain ⟨b, u⟩ := c
    simp only [Memory.put]
    split
    · simp [Memory.get?]
    · split
      · simp [Memory.get?]
      · simp [Memory.get?, *]

theorem Memory.get?_put_other (m : Memory) {a b : Nat} (v : Byte) (h : b ≠ a) : (m.put a v).get? b = m.get? b := by
  induction m with
  | nil => simp [Memory.put, Memory.get?, h]
  | cons c rest ih =>
    obtain ⟨d, u⟩ := c
    simp only [Memory.put]
    split
    · simp [Memory.get?, h]
    · split
      · subst_vars; simp [Memory.get?, h]
      · simp [Memory.get?, ih]

theorem Memory.get?_put (m : Memory) (a b : Nat) (v : Byte) :
    (m.put a v).get? b = if b = a then some v else m.get? b := by
  split
  · subst_vars; exact Memory.get?_put_same m _ v
  · exact Memory.get?_put_other m v ‹_›

theorem Memory.mem_put {m : Memory} {a : Nat} {v : Byte} {c : Host.Cell} (h : c ∈ m.put a v) : c = (a, v) ∨ c ∈ m := by
  induction m with
  | nil => simpa [Memory.put] using h
  | cons d rest ih =>
    obtain ⟨b, u⟩ := d
    simp only [Memory.put] at h
    split at h
    · simpa using h
    · split at h
      · rcases List.mem_cons.mp h with h | h
        · exact .inl h
        · exact .inr (List.mem_cons_of_mem _ h)
      · rcases List.mem_cons.mp h with h | h
        · exact .inr (by simp [h])
        · exact (ih h).imp id (List.mem_cons_of_mem _)

theorem Memory.put_rising {m : Memory} (a : Nat) (v : Byte) (h : m.Pairwise (fun c d => c.1 < d.1)) :
    (m.put a v).Pairwise (fun c d => c.1 < d.1) := by
  induction m with
  | nil => simp [Memory.put]
  | cons d rest ih =>
    obtain ⟨b, u⟩ := d
    obtain ⟨hb, hr⟩ := List.pairwise_cons.mp h
    simp only [Memory.put]
    split
    · refine List.pairwise_cons.mpr ⟨fun c hc => ?_, h⟩
      rcases List.mem_cons.mp hc with rfl | hc
      · assumption
      · exact lt_trans ‹_› (hb c hc)
    · split
      · subst_vars; exact List.pairwise_cons.mpr ⟨hb, hr⟩
      · refine List.pairwise_cons.mpr ⟨fun c hc => ?_, ih hr⟩
        rcases Memory.mem_put hc with rfl | hc
        · show b < a; omega
        · exact hb c hc

theorem Memory.wf_iff (p : Params) (m : Memory) :
    m.wf p = true ↔ m.Pairwise (fun c d => c.1 < d.1) ∧ ∀ c ∈ m, Memory.cellOk p c = true := by
  simp [Memory.wf, List.all_eq_true]

theorem Memory.wf_nil (p : Params) : Memory.wf p [] = true := by simp [Memory.wf]

/-- Storing a byte keeps the canonical form, whatever the byte. -/
theorem storeByte_wf {p : Params} {m : Memory} {a : Nat} (v : Byte) (ha : ibufBase ≤ a) (h : m.wf p = true) :
    (storeByte p m a v).wf p = true := by
  rw [storeByte]
  split
  · exact h
  · rw [Memory.wf_iff] at h ⊢
    refine ⟨Memory.put_rising a _ h.1, fun c hc => ?_⟩
    rcases Memory.mem_put hc with rfl | hc
    · simp [Memory.cellOk, BitVec.and_assoc, *]
    · exact h.2 c hc

/-- Storing a word keeps the canonical form. -/
theorem storeWord_wf {p : Params} {m : Memory} (w : Nat) (v : Word) (h : m.wf p = true) :
    (storeWord p m w v).wf p = true := by
  have : ∀ (l : List Nat) (m : Memory), m.wf p = true →
      (l.foldl (fun m j => storeByte p m (ibufBase + 4 * w + j) (wordByte v j)) m).wf p = true := by
    intro l
    induction l with
    | nil => exact fun _ h => h
    | cons j l ih =>
      exact fun m h => ih _ (storeByte_wf _ (Nat.le_trans (Nat.le_add_right _ _) (Nat.le_add_right _ _)) h)
  exact this _ _ h

/-- What is stored after a byte is stored. -/
theorem storeByte_get? (p : Params) (m : Memory) (a b : Nat) (v : Byte) :
    (storeByte p m a v).get? b =
      if b = a ∧ liveMask p a ≠ 0#8 then some (v &&& liveMask p a) else m.get? b := by
  rw [storeByte]
  split
  · simp [*]
  · simp [Memory.get?_put, *]

/-- A canonical store is determined by what it holds: equal memories are equal data. -/
theorem Memory.eq_of_get? {m n : Memory} (hm : m.Pairwise (fun c d => c.1 < d.1))
    (hn : n.Pairwise (fun c d => c.1 < d.1)) (h : ∀ a, m.get? a = n.get? a) : m = n := by
  have absent : ∀ (l : Memory) (a : Nat), (∀ c ∈ l, a < c.1) → l.get? a = none := by
    intro l a
    induction l with
    | nil => intro _; rfl
    | cons c rest ih =>
      obtain ⟨b, u⟩ := c
      intro hl
      have : a < b := hl (b, u) (by simp)
      simp only [Memory.get?, if_neg (ne_of_lt this)]
      exact ih (fun c hc => hl c (List.mem_cons_of_mem _ hc))
  induction m generalizing n with
  | nil =>
    cases n with
    | nil => rfl
    | cons c rest => obtain ⟨b, u⟩ := c; simpa [Memory.get?] using h b
  | cons c rest ih =>
    obtain ⟨b, u⟩ := c
    cases n with
    | nil => simpa [Memory.get?] using h b
    | cons d rest' =>
      obtain ⟨b', u'⟩ := d
      obtain ⟨hb, hr⟩ := List.pairwise_cons.mp hm
      obtain ⟨hb', hr'⟩ := List.pairwise_cons.mp hn
      have key : b = b' := by
        rcases lt_trichotomy b b' with hlt | heq | hgt
        · have := h b
          rw [absent ((b', u') :: rest') b (by
            intro c hc
            rcases List.mem_cons.mp hc with rfl | hc
            · exact hlt
            · exact lt_trans hlt (hb' c hc))] at this
          simp [Memory.get?] at this
        · exact heq
        · have := h b'
          rw [absent ((b, u) :: rest) b' (by
            intro c hc
            rcases List.mem_cons.mp hc with rfl | hc
            · exact hgt
            · exact lt_trans hgt (hb c hc))] at this
          simp [Memory.get?] at this
      subst key
      have hu : u = u' := by simpa [Memory.get?] using h b
      subst hu
      rw [ih hr hr' (fun a => ?_)]
      by_cases ha : a = b
      · subst ha; rw [absent rest a hb, absent rest' a hb']
      · simpa [Memory.get?, ha] using h a

end Sys2Proof.Machine
end

