-- ==== Sys2Proof/Laws/State.lean ====
section
/-! SUPPORT. What each named update of the state leaves in each field, so that no proof unfolds a record update. -/

namespace Sys2Proof.Machine

variable (s : State)

/-! ### `State.succeed` -/

@[simp] theorem State.succeed_params : s.succeed.params = s.params := rfl
@[simp] theorem State.succeed_busy : s.succeed.busy = false := rfl
@[simp] theorem State.succeed_cfgValid : s.succeed.cfgValid = s.cfgValid := rfl
@[simp] theorem State.succeed_err : s.succeed.err = 0#3 := rfl
@[simp] theorem State.succeed_errInfo : s.succeed.errInfo = 0#32 := rfl
@[simp] theorem State.succeed_ilen : s.succeed.ilen = s.ilen := rfl
@[simp] theorem State.succeed_olen : s.succeed.olen = s.olen := rfl
@[simp] theorem State.succeed_cfgK : s.succeed.cfgK = s.cfgK := rfl
@[simp] theorem State.succeed_cfgN : s.succeed.cfgN = s.cfgN := rfl
@[simp] theorem State.succeed_encReg : s.succeed.encReg = s.encReg := rfl
@[simp] theorem State.succeed_parseResult : s.succeed.parseResult = s.parseResult := rfl
@[simp] theorem State.succeed_polyRaw : s.succeed.polyRaw = s.polyRaw := rfl
@[simp] theorem State.succeed_polyMask : s.succeed.polyMask = s.polyMask := rfl
@[simp] theorem State.succeed_ibuf : s.succeed.ibuf = s.ibuf := rfl
@[simp] theorem State.succeed_obuf : s.succeed.obuf = s.obuf := rfl
@[simp] theorem State.succeed_treg1 : s.succeed.treg1 = s.treg1 := rfl
@[simp] theorem State.succeed_treg2 : s.succeed.treg2 = s.treg2 := rfl
@[simp] theorem State.succeed_inFlight : s.succeed.inFlight = none := rfl
@[simp] theorem State.succeed_ibufEra : s.succeed.ibufEra = s.ibufEra := rfl
@[simp] theorem State.succeed_obufEra : s.succeed.obufEra = s.obufEra := rfl
@[simp] theorem State.succeed_hostWaits : s.succeed.hostWaits = s.hostWaits := rfl
@[simp] theorem State.succeed_hostReads : s.succeed.hostReads = s.hostReads := rfl
@[simp] theorem State.succeed_agenda : s.succeed.agenda = s.agenda := rfl

/-! ### `State.raise` -/

@[simp] theorem State.raise_params (kind : ErrorKind) (info : Word) : (s.raise kind info).params = s.params := rfl
@[simp] theorem State.raise_busy (kind : ErrorKind) (info : Word) : (s.raise kind info).busy = false := rfl
@[simp] theorem State.raise_cfgValid (kind : ErrorKind) (info : Word) :
    (s.raise kind info).cfgValid = s.cfgValid := rfl
@[simp] theorem State.raise_err (kind : ErrorKind) (info : Word) : (s.raise kind info).err = kind.code := rfl
@[simp] theorem State.raise_errInfo (kind : ErrorKind) (info : Word) : (s.raise kind info).errInfo = info := rfl
@[simp] theorem State.raise_ilen (kind : ErrorKind) (info : Word) : (s.raise kind info).ilen = s.ilen := rfl
@[simp] theorem State.raise_olen (kind : ErrorKind) (info : Word) : (s.raise kind info).olen = s.olen := rfl
@[simp] theorem State.raise_cfgK (kind : ErrorKind) (info : Word) : (s.raise kind info).cfgK = s.cfgK := rfl
@[simp] theorem State.raise_cfgN (kind : ErrorKind) (info : Word) : (s.raise kind info).cfgN = s.cfgN := rfl
@[simp] theorem State.raise_encReg (kind : ErrorKind) (info : Word) : (s.raise kind info).encReg = s.encReg := rfl
@[simp] theorem State.raise_parseResult (kind : ErrorKind) (info : Word) :
    (s.raise kind info).parseResult = s.parseResult := rfl
@[simp] theorem State.raise_polyRaw (kind : ErrorKind) (info : Word) : (s.raise kind info).polyRaw = s.polyRaw := rfl
@[simp] theorem State.raise_polyMask (kind : ErrorKind) (info : Word) :
    (s.raise kind info).polyMask = s.polyMask := rfl
@[simp] theorem State.raise_ibuf (kind : ErrorKind) (info : Word) : (s.raise kind info).ibuf = s.ibuf := rfl
@[simp] theorem State.raise_obuf (kind : ErrorKind) (info : Word) : (s.raise kind info).obuf = s.obuf := rfl
@[simp] theorem State.raise_treg1 (kind : ErrorKind) (info : Word) : (s.raise kind info).treg1 = s.treg1 := rfl
@[simp] theorem State.raise_treg2 (kind : ErrorKind) (info : Word) : (s.raise kind info).treg2 = s.treg2 := rfl
@[simp] theorem State.raise_inFlight (kind : ErrorKind) (info : Word) : (s.raise kind info).inFlight = none := rfl
@[simp] theorem State.raise_ibufEra (kind : ErrorKind) (info : Word) : (s.raise kind info).ibufEra = s.ibufEra := rfl
@[simp] theorem State.raise_obufEra (kind : ErrorKind) (info : Word) : (s.raise kind info).obufEra = s.obufEra := rfl
@[simp] theorem State.raise_hostWaits (kind : ErrorKind) (info : Word) :
    (s.raise kind info).hostWaits = s.hostWaits := rfl
@[simp] theorem State.raise_hostReads (kind : ErrorKind) (info : Word) :
    (s.raise kind info).hostReads = s.hostReads := rfl
@[simp] theorem State.raise_agenda (kind : ErrorKind) (info : Word) : (s.raise kind info).agenda = s.agenda := rfl

/-! ### `State.illegalCommand` -/

@[simp] theorem State.illegalCommand_params (w : Word) : (s.illegalCommand w).params = s.params := rfl
@[simp] theorem State.illegalCommand_busy (w : Word) : (s.illegalCommand w).busy = false := rfl
@[simp] theorem State.illegalCommand_cfgValid (w : Word) : (s.illegalCommand w).cfgValid = s.cfgValid := rfl
@[simp] theorem State.illegalCommand_err (w : Word) : (s.illegalCommand w).err = 7#3 := rfl
@[simp] theorem State.illegalCommand_errInfo (w : Word) : (s.illegalCommand w).errInfo = w := rfl
@[simp] theorem State.illegalCommand_ilen (w : Word) : (s.illegalCommand w).ilen = s.ilen := rfl
@[simp] theorem State.illegalCommand_olen (w : Word) : (s.illegalCommand w).olen = s.olen := rfl
@[simp] theorem State.illegalCommand_cfgK (w : Word) : (s.illegalCommand w).cfgK = s.cfgK := rfl
@[simp] theorem State.illegalCommand_cfgN (w : Word) : (s.illegalCommand w).cfgN = s.cfgN := rfl
@[simp] theorem State.illegalCommand_encReg (w : Word) : (s.illegalCommand w).encReg = s.encReg := rfl
@[simp] theorem State.illegalCommand_parseResult (w : Word) : (s.illegalCommand w).parseResult = s.parseResult := rfl
@[simp] theorem State.illegalCommand_polyRaw (w : Word) : (s.illegalCommand w).polyRaw = s.polyRaw := rfl
@[simp] theorem State.illegalCommand_polyMask (w : Word) : (s.illegalCommand w).polyMask = s.polyMask := rfl
@[simp] theorem State.illegalCommand_ibuf (w : Word) : (s.illegalCommand w).ibuf = s.ibuf := rfl
@[simp] theorem State.illegalCommand_obuf (w : Word) : (s.illegalCommand w).obuf = s.obuf := rfl
@[simp] theorem State.illegalCommand_treg1 (w : Word) : (s.illegalCommand w).treg1 = s.treg1 := rfl
@[simp] theorem State.illegalCommand_treg2 (w : Word) : (s.illegalCommand w).treg2 = s.treg2 := rfl
@[simp] theorem State.illegalCommand_inFlight (w : Word) : (s.illegalCommand w).inFlight = none := rfl
@[simp] theorem State.illegalCommand_ibufEra (w : Word) : (s.illegalCommand w).ibufEra = s.ibufEra := rfl
@[simp] theorem State.illegalCommand_obufEra (w : Word) : (s.illegalCommand w).obufEra = s.obufEra := rfl
@[simp] theorem State.illegalCommand_hostWaits (w : Word) : (s.illegalCommand w).hostWaits = s.hostWaits := rfl
@[simp] theorem State.illegalCommand_hostReads (w : Word) : (s.illegalCommand w).hostReads = s.hostReads := rfl
@[simp] theorem State.illegalCommand_agenda (w : Word) : (s.illegalCommand w).agenda = s.agenda := rfl

/-! ### `State.output` -/

@[simp] theorem State.output_params (bits : Bits) (len : Nat) : (s.output bits len).params = s.params := rfl
@[simp] theorem State.output_busy (bits : Bits) (len : Nat) : (s.output bits len).busy = s.busy := rfl
@[simp] theorem State.output_cfgValid (bits : Bits) (len : Nat) : (s.output bits len).cfgValid = s.cfgValid := rfl
@[simp] theorem State.output_err (bits : Bits) (len : Nat) : (s.output bits len).err = s.err := rfl
@[simp] theorem State.output_errInfo (bits : Bits) (len : Nat) : (s.output bits len).errInfo = s.errInfo := rfl
@[simp] theorem State.output_ilen (bits : Bits) (len : Nat) : (s.output bits len).ilen = s.ilen := rfl
@[simp] theorem State.output_olen (bits : Bits) (len : Nat) : (s.output bits len).olen = BitVec.ofNat 32 len := rfl
@[simp] theorem State.output_cfgK (bits : Bits) (len : Nat) : (s.output bits len).cfgK = s.cfgK := rfl
@[simp] theorem State.output_cfgN (bits : Bits) (len : Nat) : (s.output bits len).cfgN = s.cfgN := rfl
@[simp] theorem State.output_encReg (bits : Bits) (len : Nat) : (s.output bits len).encReg = s.encReg := rfl
@[simp] theorem State.output_parseResult (bits : Bits) (len : Nat) :
    (s.output bits len).parseResult = s.parseResult := rfl
@[simp] theorem State.output_polyRaw (bits : Bits) (len : Nat) : (s.output bits len).polyRaw = s.polyRaw := rfl
@[simp] theorem State.output_polyMask (bits : Bits) (len : Nat) : (s.output bits len).polyMask = s.polyMask := rfl
@[simp] theorem State.output_ibuf (bits : Bits) (len : Nat) : (s.output bits len).ibuf = s.ibuf := rfl
@[simp] theorem State.output_obuf (bits : Bits) (len : Nat) : (s.output bits len).obuf = bits := rfl
@[simp] theorem State.output_treg1 (bits : Bits) (len : Nat) : (s.output bits len).treg1 = s.treg1 := rfl
@[simp] theorem State.output_treg2 (bits : Bits) (len : Nat) : (s.output bits len).treg2 = s.treg2 := rfl
@[simp] theorem State.output_inFlight (bits : Bits) (len : Nat) : (s.output bits len).inFlight = s.inFlight := rfl
@[simp] theorem State.output_ibufEra (bits : Bits) (len : Nat) : (s.output bits len).ibufEra = s.ibufEra := rfl
@[simp] theorem State.output_obufEra (bits : Bits) (len : Nat) : (s.output bits len).obufEra = s.obufEra + 1 := rfl
@[simp] theorem State.output_hostWaits (bits : Bits) (len : Nat) : (s.output bits len).hostWaits = s.hostWaits := rfl
@[simp] theorem State.output_hostReads (bits : Bits) (len : Nat) : (s.output bits len).hostReads = s.hostReads := rfl
@[simp] theorem State.output_agenda (bits : Bits) (len : Nat) : (s.output bits len).agenda = s.agenda := rfl

/-! ### `State.configure` -/

@[simp] theorem State.configure_params (k n : BitVec 8) (masks : List Nat) :
    (s.configure k n masks).params = s.params := rfl
@[simp] theorem State.configure_busy (k n : BitVec 8) (masks : List Nat) :
    (s.configure k n masks).busy = s.busy := rfl
@[simp] theorem State.configure_cfgValid (k n : BitVec 8) (masks : List Nat) :
    (s.configure k n masks).cfgValid = true := rfl
@[simp] theorem State.configure_err (k n : BitVec 8) (masks : List Nat) : (s.configure k n masks).err = s.err := rfl
@[simp] theorem State.configure_errInfo (k n : BitVec 8) (masks : List Nat) :
    (s.configure k n masks).errInfo = s.errInfo := rfl
@[simp] theorem State.configure_ilen (k n : BitVec 8) (masks : List Nat) :
    (s.configure k n masks).ilen = s.ilen := rfl
@[simp] theorem State.configure_olen (k n : BitVec 8) (masks : List Nat) :
    (s.configure k n masks).olen = s.olen := rfl
@[simp] theorem State.configure_cfgK (k n : BitVec 8) (masks : List Nat) : (s.configure k n masks).cfgK = k := rfl
@[simp] theorem State.configure_cfgN (k n : BitVec 8) (masks : List Nat) : (s.configure k n masks).cfgN = n := rfl
@[simp] theorem State.configure_encReg (k n : BitVec 8) (masks : List Nat) :
    (s.configure k n masks).encReg = 0#32 := rfl
@[simp] theorem State.configure_parseResult (k n : BitVec 8) (masks : List Nat) :
    (s.configure k n masks).parseResult = s.parseResult := rfl
@[simp] theorem State.configure_polyRaw (k n : BitVec 8) (masks : List Nat) :
    (s.configure k n masks).polyRaw = s.polyRaw := rfl
@[simp] theorem State.configure_polyMask (k n : BitVec 8) (masks : List Nat) :
    (s.configure k n masks).polyMask = masks.map (BitVec.ofNat 32) ++ List.replicate (s.params.nmax - n.toNat) 0#32 := rfl
@[simp] theorem State.configure_ibuf (k n : BitVec 8) (masks : List Nat) :
    (s.configure k n masks).ibuf = s.ibuf := rfl
@[simp] theorem State.configure_obuf (k n : BitVec 8) (masks : List Nat) :
    (s.configure k n masks).obuf = s.obuf := rfl
@[simp] theorem State.configure_treg1 (k n : BitVec 8) (masks : List Nat) :
    (s.configure k n masks).treg1 = s.treg1 := rfl
@[simp] theorem State.configure_treg2 (k n : BitVec 8) (masks : List Nat) :
    (s.configure k n masks).treg2 = s.treg2 := rfl
@[simp] theorem State.configure_inFlight (k n : BitVec 8) (masks : List Nat) :
    (s.configure k n masks).inFlight = s.inFlight := rfl
@[simp] theorem State.configure_ibufEra (k n : BitVec 8) (masks : List Nat) :
    (s.configure k n masks).ibufEra = s.ibufEra := rfl
@[simp] theorem State.configure_obufEra (k n : BitVec 8) (masks : List Nat) :
    (s.configure k n masks).obufEra = s.obufEra := rfl
@[simp] theorem State.configure_hostWaits (k n : BitVec 8) (masks : List Nat) :
    (s.configure k n masks).hostWaits = s.hostWaits := rfl
@[simp] theorem State.configure_hostReads (k n : BitVec 8) (masks : List Nat) :
    (s.configure k n masks).hostReads = s.hostReads := rfl
@[simp] theorem State.configure_agenda (k n : BitVec 8) (masks : List Nat) :
    (s.configure k n masks).agenda = s.agenda := rfl

/-! ### `State.issue` -/

@[simp] theorem State.issue_params (w : Word) : (s.issue w).params = s.params := rfl
@[simp] theorem State.issue_busy (w : Word) : (s.issue w).busy = true := rfl
@[simp] theorem State.issue_cfgValid (w : Word) : (s.issue w).cfgValid = s.cfgValid := rfl
@[simp] theorem State.issue_err (w : Word) : (s.issue w).err = s.err := rfl
@[simp] theorem State.issue_errInfo (w : Word) : (s.issue w).errInfo = s.errInfo := rfl
@[simp] theorem State.issue_ilen (w : Word) : (s.issue w).ilen = s.ilen := rfl
@[simp] theorem State.issue_olen (w : Word) : (s.issue w).olen = s.olen := rfl
@[simp] theorem State.issue_cfgK (w : Word) : (s.issue w).cfgK = s.cfgK := rfl
@[simp] theorem State.issue_cfgN (w : Word) : (s.issue w).cfgN = s.cfgN := rfl
@[simp] theorem State.issue_encReg (w : Word) : (s.issue w).encReg = s.encReg := rfl
@[simp] theorem State.issue_parseResult (w : Word) : (s.issue w).parseResult = s.parseResult := rfl
@[simp] theorem State.issue_polyRaw (w : Word) : (s.issue w).polyRaw = s.polyRaw := rfl
@[simp] theorem State.issue_polyMask (w : Word) : (s.issue w).polyMask = s.polyMask := rfl
@[simp] theorem State.issue_ibuf (w : Word) : (s.issue w).ibuf = s.ibuf := rfl
@[simp] theorem State.issue_obuf (w : Word) : (s.issue w).obuf = s.obuf := rfl
@[simp] theorem State.issue_treg1 (w : Word) : (s.issue w).treg1 = s.treg1 := rfl
@[simp] theorem State.issue_treg2 (w : Word) : (s.issue w).treg2 = s.treg2 := rfl
@[simp] theorem State.issue_inFlight (w : Word) : (s.issue w).inFlight = some w := rfl
@[simp] theorem State.issue_ibufEra (w : Word) : (s.issue w).ibufEra = s.ibufEra := rfl
@[simp] theorem State.issue_obufEra (w : Word) : (s.issue w).obufEra = s.obufEra := rfl
@[simp] theorem State.issue_hostWaits (w : Word) : (s.issue w).hostWaits = true := rfl
@[simp] theorem State.issue_hostReads (w : Word) : (s.issue w).hostReads = s.hostReads := rfl
@[simp] theorem State.issue_agenda (w : Word) : (s.issue w).agenda = .core :: s.agenda := rfl

/-! ### `State.resetBlock` -/

@[simp] theorem State.resetBlock_params : s.resetBlock.params = s.params := rfl
@[simp] theorem State.resetBlock_busy : s.resetBlock.busy = false := rfl
@[simp] theorem State.resetBlock_cfgValid : s.resetBlock.cfgValid = false := rfl
@[simp] theorem State.resetBlock_err : s.resetBlock.err = 0#3 := rfl
@[simp] theorem State.resetBlock_errInfo : s.resetBlock.errInfo = 0#32 := rfl
@[simp] theorem State.resetBlock_ilen : s.resetBlock.ilen = 0#32 := rfl
@[simp] theorem State.resetBlock_olen : s.resetBlock.olen = 0#32 := rfl
@[simp] theorem State.resetBlock_cfgK : s.resetBlock.cfgK = 0#8 := rfl
@[simp] theorem State.resetBlock_cfgN : s.resetBlock.cfgN = 0#8 := rfl
@[simp] theorem State.resetBlock_encReg : s.resetBlock.encReg = 0#32 := rfl
@[simp] theorem State.resetBlock_parseResult : s.resetBlock.parseResult = 0#32 := rfl
@[simp] theorem State.resetBlock_polyRaw : s.resetBlock.polyRaw = List.replicate s.params.nmax 0#32 := rfl
@[simp] theorem State.resetBlock_polyMask : s.resetBlock.polyMask = List.replicate s.params.nmax 0#32 := rfl
@[simp] theorem State.resetBlock_ibuf : s.resetBlock.ibuf = [] := rfl
@[simp] theorem State.resetBlock_obuf : s.resetBlock.obuf = [] := rfl
@[simp] theorem State.resetBlock_treg1 : s.resetBlock.treg1 = 0#2 := rfl
@[simp] theorem State.resetBlock_treg2 : s.resetBlock.treg2 = 0#2 := rfl
@[simp] theorem State.resetBlock_inFlight : s.resetBlock.inFlight = none := rfl
@[simp] theorem State.resetBlock_ibufEra : s.resetBlock.ibufEra = s.ibufEra + 1 := rfl
@[simp] theorem State.resetBlock_obufEra : s.resetBlock.obufEra = s.obufEra + 1 := rfl
@[simp] theorem State.resetBlock_hostWaits : s.resetBlock.hostWaits = false := rfl
@[simp] theorem State.resetBlock_hostReads : s.resetBlock.hostReads = s.hostReads := rfl
@[simp] theorem State.resetBlock_agenda : s.resetBlock.agenda = s.agenda := rfl

/-! ### `noteRead` -/

@[simp] theorem noteRead_params (l : Loc) (v : Word) : (noteRead s l v).params = s.params := rfl
@[simp] theorem noteRead_busy (l : Loc) (v : Word) : (noteRead s l v).busy = s.busy := rfl
@[simp] theorem noteRead_cfgValid (l : Loc) (v : Word) : (noteRead s l v).cfgValid = s.cfgValid := rfl
@[simp] theorem noteRead_err (l : Loc) (v : Word) : (noteRead s l v).err = s.err := rfl
@[simp] theorem noteRead_errInfo (l : Loc) (v : Word) : (noteRead s l v).errInfo = s.errInfo := rfl
@[simp] theorem noteRead_ilen (l : Loc) (v : Word) : (noteRead s l v).ilen = s.ilen := rfl
@[simp] theorem noteRead_olen (l : Loc) (v : Word) : (noteRead s l v).olen = s.olen := rfl
@[simp] theorem noteRead_cfgK (l : Loc) (v : Word) : (noteRead s l v).cfgK = s.cfgK := rfl
@[simp] theorem noteRead_cfgN (l : Loc) (v : Word) : (noteRead s l v).cfgN = s.cfgN := rfl
@[simp] theorem noteRead_encReg (l : Loc) (v : Word) : (noteRead s l v).encReg = s.encReg := rfl
@[simp] theorem noteRead_parseResult (l : Loc) (v : Word) : (noteRead s l v).parseResult = s.parseResult := rfl
@[simp] theorem noteRead_polyRaw (l : Loc) (v : Word) : (noteRead s l v).polyRaw = s.polyRaw := rfl
@[simp] theorem noteRead_polyMask (l : Loc) (v : Word) : (noteRead s l v).polyMask = s.polyMask := rfl
@[simp] theorem noteRead_ibuf (l : Loc) (v : Word) : (noteRead s l v).ibuf = s.ibuf := rfl
@[simp] theorem noteRead_obuf (l : Loc) (v : Word) : (noteRead s l v).obuf = s.obuf := rfl
@[simp] theorem noteRead_treg1 (l : Loc) (v : Word) : (noteRead s l v).treg1 = s.treg1 := rfl
@[simp] theorem noteRead_treg2 (l : Loc) (v : Word) : (noteRead s l v).treg2 = s.treg2 := rfl
@[simp] theorem noteRead_inFlight (l : Loc) (v : Word) : (noteRead s l v).inFlight = s.inFlight := rfl
@[simp] theorem noteRead_ibufEra (l : Loc) (v : Word) : (noteRead s l v).ibufEra = s.ibufEra := rfl
@[simp] theorem noteRead_obufEra (l : Loc) (v : Word) : (noteRead s l v).obufEra = s.obufEra := rfl
@[simp] theorem noteRead_hostWaits (l : Loc) (v : Word) : (noteRead s l v).hostWaits = (s.hostWaits && !(decide (l = .status) && !s.busy)) := rfl
@[simp] theorem noteRead_hostReads (l : Loc) (v : Word) : (noteRead s l v).hostReads = v :: s.hostReads := rfl
@[simp] theorem noteRead_agenda (l : Loc) (v : Word) : (noteRead s l v).agenda = s.agenda := rfl

end Sys2Proof.Machine
end

