-- ==== Sys2Proof/Laws/Ops.lean ====
section
/-! SUPPORT. What each shared operation can do, said once: the operands, the buffers, the accesses, the commands and the
turns. -/

namespace Sys2Proof.Machine

/-! ### Operands and buffers -/

@[simp] theorem inputBits_length (s : State) : (inputBits s).length = s.ilen.toNat := by simp [inputBits]

theorem inputBits_getElem? (s : State) {i : Nat} (h : i < s.ilen.toNat) : (inputBits s)[i]? = some (ibufBit s i) := by
  simp [inputBits, h]

theorem tapMasks_length {s : State} (h : polyCount s ≤ s.polyMask.length) : (tapMasks s).length = polyCount s := by
  simp [tapMasks, h]

/-- A bit of IBUF at or above LMAX reads 0 (R52). -/
theorem ibufBit_above (s : State) {i : Nat} (h : s.params.lmax ≤ i) : ibufBit s i = false := by
  have ones : ∀ n, n < 8 → (0xFF#8).getLsbD n = true := by decide
  have live : (liveMask s.params (ibufBase + i / 8)).getLsbD (7 - i % 8) = false := by
    rw [liveMask, Nat.add_sub_cancel_left, BitVec.getLsbD_not, BitVec.getLsbD_ushiftRight, ones _ (by omega)]
    simp
  rw [ibufBit, ibufByte]
  split
  · simp
  · rw [BitVec.getLsbD_and, live, Bool.and_false]

/-- A bit of OBUF at or above OMAX reads 0 (R52). -/
theorem obufBit_above (s : State) {i : Nat} (h : s.params.omax ≤ i) : obufBit s i = false := by
  simp [obufBit, Nat.not_lt.mpr h]

/-- A bit of OBUF that the last data command wrote (R67). -/
theorem obufBit_written (s : State) {i : Nat} {b : Bool} (hi : i < s.params.omax) (h : s.obuf[i]? = some b) :
    obufBit s i = b := by
  simp [obufBit, hi, h]

/-- The bits of a packed word, most significant first (R52). -/
theorem packWord_getMsbD {bs : Bits} (h : bs.length = 32) (k : Nat) : (packWord bs).getMsbD k = bs.getD k false := by
  rw [packWord, BitVec.getMsbD_setWidth, BitVec.getMsbD_ofBoolListBE]
  simp [h]

/-! ### The host port -/

/-- What an access can be to (R56, R57). -/
theorem target_ok {p : Params} {bytes off : Nat} {l : Loc} (h : target p bytes off = .ok l) :
    bytes = 4 ∧ off % 4 = 0 ∧ locate p off = some l := by
  unfold target at h
  split at h
  · cases h
  · split at h
    · cases h
    · split at h
      · cases h
      · cases h; exact ⟨not_not.mp ‹_›, not_not.mp ‹_›, ‹_›⟩

/-- A HOST access that has a meaning is a read, which only notes its value, or a write of one of the four writable words
(R58, R61). -/
theorem hostAccess_next {a : Access} {s t : State} (h : hostAccess a s = .next t) :
    (∃ bytes off l v, a = .read bytes off ∧ target s.params bytes off = .ok l ∧ readLoc s l = .ok v ∧
      (s.hostWaits = true → l = .status) ∧ t = noteRead s l v) ∨
    (∃ bytes off v, a = .write bytes off v ∧ s.hostWaits = false ∧
      ((target s.params bytes off = .ok .cmd ∧
          t = { s with busy := true, inFlight := some v, hostWaits := true }) ∨
       (target s.params bytes off = .ok .ilen ∧ t = { s with ilen := v }) ∨
       (∃ j, target s.params bytes off = .ok (.polyRaw j) ∧ t = { s with polyRaw := s.polyRaw.set j v }) ∨
       (∃ w, target s.params bytes off = .ok (.ibuf w) ∧ t = { s with ibuf := storeWord s.params s.ibuf w v }))) := by
  cases a with
  | read bytes off =>
    refine .inl ?_
    simp only [hostAccess] at h
    split at h
    · cases h
    · rename_i l hl
      split at h
      · cases h
      · rename_i hw
        split at h
        · cases h
        · rename_i v hv
          cases h
          refine ⟨bytes, off, l, v, rfl, hl, hv, fun hs => ?_, rfl⟩
          by_contra hne
          exact hw ⟨hs, hne⟩
  | write bytes off v =>
    refine .inr ⟨bytes, off, v, rfl, ?_⟩
    simp only [hostAccess] at h
    split at h
    · cases h
    · rename_i l hl
      split at h
      · cases h
      · rename_i hw
        refine ⟨by simpa using hw, ?_⟩
        cases l with
        | cmd => cases h; exact .inl ⟨hl, rfl⟩
        | ilen => cases h; exact .inr (.inl ⟨hl, rfl⟩)
        | polyRaw j => cases h; exact .inr (.inr (.inl ⟨j, hl, rfl⟩))
        | ibuf w => cases h; exact .inr (.inr (.inr ⟨w, hl, rfl⟩))
        | status => cases h
        | errInfo => cases h
        | olen => cases h
        | cfgK => cases h
        | cfgN => cases h
        | encReg => cases h
        | parseResult => cases h
        | polyMask j => cases h
        | obuf w => cases h

/-- A statement only puts turns on the agenda. -/
theorem hostStatement_next {c : Stmt} {s t : State} (h : hostStatement c s = .next t) :
    ∃ turns, c.expand s = .ok turns ∧ t = { s with agenda := turns ++ s.agenda } := by
  unfold hostStatement at h
  split at h
  · cases h
  · rename_i turns ht; cases h; exact ⟨turns, ht, rfl⟩

/-! ### The commands -/

/-- PARSE: an index out of range, a bad digit, or the mask. -/
theorem execParse_cases (idx : BitVec 8) (s : State) :
    (s.params.nmax ≤ idx.toNat ∧ execParse idx s = .next (s.illegalCommand (encode (.parse idx)))) ∨
    (idx.toNat < s.params.nmax ∧ polyParse (s.polyRaw.getD idx.toNat 0#32) = none ∧
      execParse idx s = .next (s.raise .invalidPolynomial (polyErrorInfo idx.toNat 1))) ∨
    (∃ m, idx.toNat < s.params.nmax ∧ polyParse (s.polyRaw.getD idx.toNat 0#32) = some m ∧
      execParse idx s = .next { s with parseResult := BitVec.ofNat 32 m }.succeed) := by
  by_cases hn : s.params.nmax ≤ idx.toNat
  · exact .inl ⟨hn, by simp [execParse, hn]⟩
  · cases hp : polyParse (s.polyRaw.getD idx.toNat 0#32) with
    | none => exact .inr (.inl ⟨by omega, rfl, by simp only [execParse, if_neg hn, hp]⟩)
    | some m => exact .inr (.inr ⟨m, by omega, rfl, by simp only [execParse, if_neg hn, hp]⟩)

/-- CONFIG: an operand out of range, a bad polynomial, or the new configuration. -/
theorem execConfig_cases (k n : BitVec 8) (s : State) :
    ((k.toNat < 2 ∨ s.params.kmax < k.toNat) ∧ execConfig k n s = .next (s.raise .invalidConfiguration 1#32)) ∨
    ((2 ≤ k.toNat ∧ k.toNat ≤ s.params.kmax) ∧ (n.toNat < 1 ∨ s.params.nmax < n.toNat) ∧
      execConfig k n s = .next (s.raise .invalidConfiguration 2#32)) ∨
    (∃ info, (2 ≤ k.toNat ∧ k.toNat ≤ s.params.kmax) ∧ (1 ≤ n.toNat ∧ n.toNat ≤ s.params.nmax) ∧
      parsePolys k.toNat 0 (s.polyRaw.take n.toNat) = .error info ∧
      execConfig k n s = .next (s.raise .invalidPolynomial info)) ∨
    (∃ masks, (2 ≤ k.toNat ∧ k.toNat ≤ s.params.kmax) ∧ (1 ≤ n.toNat ∧ n.toNat ≤ s.params.nmax) ∧
      parsePolys k.toNat 0 (s.polyRaw.take n.toNat) = .ok masks ∧
      execConfig k n s = .next (s.configure k n masks).succeed) := by
  by_cases hk : k.toNat < 2 ∨ s.params.kmax < k.toNat
  · exact .inl ⟨hk, by simp only [execConfig, if_pos hk]⟩
  · have hk' : 2 ≤ k.toNat ∧ k.toNat ≤ s.params.kmax := by omega
    by_cases hn : n.toNat < 1 ∨ s.params.nmax < n.toNat
    · exact .inr (.inl ⟨hk', hn, by simp only [execConfig, if_neg hk, if_pos hn]⟩)
    · have hn' : 1 ≤ n.toNat ∧ n.toNat ≤ s.params.nmax := by omega
      cases hp : parsePolys k.toNat 0 (s.polyRaw.take n.toNat) with
      | error info =>
        exact .inr (.inr (.inl ⟨info, hk', hn', rfl, by simp only [execConfig, if_neg hk, if_neg hn, hp]⟩))
      | ok masks =>
        exact .inr (.inr (.inr ⟨masks, hk', hn', rfl, by simp only [execConfig, if_neg hk, if_neg hn, hp]⟩))

/-- ENCODE: not configured, too long, or the codeword. -/
theorem execEncode_cases (s : State) :
    (s.cfgValid = false ∧ execEncode s = .next (s.raise .invalidConfiguration 3#32)) ∨
    (s.cfgValid = true ∧ s.params.lmax < s.ilen.toNat ∧ execEncode s = .next (s.raise .invalidInputLength s.ilen)) ∨
    (s.cfgValid = true ∧ s.ilen.toNat ≤ s.params.lmax ∧
      execEncode s = .next ({ s with
        encReg := BitVec.ofNat 32 (shiftIn (regWidth s) s.encReg.toNat (inputBits s)) }.output
          (codeword (regWidth s) (tapMasks s) s.encReg.toNat (inputBits s)) (s.ilen.toNat * polyCount s)).succeed) := by
  cases hc : s.cfgValid with
  | false => exact .inl ⟨rfl, by simp [execEncode, hc]⟩
  | true =>
    by_cases hl : s.params.lmax < s.ilen.toNat
    · exact .inr (.inl ⟨rfl, hl, by simp [execEncode, hc, inputTooLong, hl]⟩)
    · exact .inr (.inr ⟨rfl, by omega, by simp [execEncode, hc, inputTooLong, hl]⟩)

/-- DECODE: not configured, too long, no multiple of N, or the decoded sequence. -/
theorem execDecode_cases (s : State) :
    (s.cfgValid = false ∧ execDecode s = .next (s.raise .invalidConfiguration 3#32)) ∨
    (s.cfgValid = true ∧ (s.params.lmax < s.ilen.toNat ∨ s.ilen.toNat % polyCount s ≠ 0) ∧
      execDecode s = .next (s.raise .invalidInputLength s.ilen)) ∨
    (s.cfgValid = true ∧ s.ilen.toNat ≤ s.params.lmax ∧ s.ilen.toNat % polyCount s = 0 ∧
      execDecode s = .next (s.output (viterbi (regWidth s) (tapMasks s)
        (rxGroups (polyCount s) (s.ilen.toNat / polyCount s) (inputBits s)))
          (s.ilen.toNat / polyCount s)).succeed) := by
  cases hc : s.cfgValid with
  | false => exact .inl ⟨rfl, by simp [execDecode, hc]⟩
  | true =>
    by_cases hl : s.params.lmax < s.ilen.toNat
    · exact .inr (.inl ⟨rfl, .inl hl, by simp [execDecode, hc, inputTooLong, hl]⟩)
    · by_cases hm : s.ilen.toNat % polyCount s = 0
      · exact .inr (.inr ⟨rfl, by omega, hm, by simp [execDecode, hc, inputTooLong, hl, hm]⟩)
      · exact .inr (.inl ⟨rfl, .inr hm, by simp [execDecode, hc, inputTooLong, hl, hm]⟩)

/-- INTLV: too long, a length the parameter faults on, or the interleaved sequence. -/
theorem execIntlv_cases (s : State) :
    ((s.params.lmax < s.ilen.toNat ∨ interleaverFaults s = true) ∧
      execIntlv s = .next (s.raise .invalidInputLength s.ilen)) ∨
    (s.ilen.toNat ≤ s.params.lmax ∧ interleaverFaults s = false ∧
      execIntlv s = .next (s.output (interleave (inputBits s)) s.ilen.toNat).succeed) := by
  by_cases hl : s.params.lmax < s.ilen.toNat
  · exact .inl ⟨.inl hl, by simp [execIntlv, inputTooLong, hl]⟩
  · cases hf : interleaverFaults s with
    | true => exact .inl ⟨.inr rfl, by simp [execIntlv, inputTooLong, hl, hf]⟩
    | false => exact .inr ⟨by omega, rfl, by simp [execIntlv, inputTooLong, hl, hf]⟩

/-- TURBO: not configured, too long, a length the parameter faults on, or the three streams. -/
theorem execTurbo_cases (s : State) :
    (s.cfgValid = false ∧ execTurbo s = .next (s.raise .invalidConfiguration 3#32)) ∨
    (s.cfgValid = true ∧ (s.params.lmax < s.ilen.toNat ∨ interleaverFaults s = true) ∧
      execTurbo s = .next (s.raise .invalidInputLength s.ilen)) ∨
    (s.cfgValid = true ∧ s.ilen.toNat ≤ s.params.lmax ∧ interleaverFaults s = false ∧
      execTurbo s = .next ({ s with
        treg1 := BitVec.ofNat 2 (shiftIn turboWidth 0 (inputBits s))
        treg2 := BitVec.ofNat 2 (shiftIn turboWidth 0 (interleave (inputBits s))) }.output
          (turboBits (tapMasks s) (inputBits s)) (s.ilen.toNat * (1 + 2 * polyCount s))).succeed) := by
  cases hc : s.cfgValid with
  | false => exact .inl ⟨rfl, by simp [execTurbo, hc]⟩
  | true =>
    by_cases hl : s.params.lmax < s.ilen.toNat
    · exact .inr (.inl ⟨rfl, .inl hl, by simp [execTurbo, hc, inputTooLong, hl]⟩)
    · cases hf : interleaverFaults s with
      | true => exact .inr (.inl ⟨rfl, .inr rfl, by simp [execTurbo, hc, inputTooLong, hl, hf]⟩)
      | false => exact .inr (.inr ⟨rfl, by omega, rfl, by simp [execTurbo, hc, inputTooLong, hl, hf]⟩)

/-- The interleaved sequence has the length of its input. -/
@[simp] theorem interleave_length (bits : Bits) : (interleave bits).length = bits.length := by
  have : ∀ (l : List Nat) (out : Bits),
      (l.foldl (fun out i => out.set (newPosition i bits.length) (bits.getD i false)) out).length = out.length := by
    intro l
    induction l with
    | nil => intro out; rfl
    | cons i l ih => intro out; rw [List.foldl_cons, ih, List.length_set]
  rw [interleave, this, List.length_replicate]

/-! ### Turns -/

/-- The CORE's turn: idle, an illegal word, or a command (R31, R74, R75, R220). -/
theorem coreTurn_cases (s : State) :
    (s.inFlight = none ∧ coreTurn s = .next s) ∨
    (∃ w e, s.inFlight = some w ∧ decode s.params w = .error e ∧ coreTurn s = .next (s.illegalCommand w)) ∨
    (∃ w i, s.inFlight = some w ∧ decode s.params w = .ok i ∧ coreTurn s = exec i s) := by
  cases hw : s.inFlight with
  | none => exact .inl ⟨rfl, by simp only [coreTurn, hw]⟩
  | some w =>
    cases hd : decode s.params w with
    | error e => exact .inr (.inl ⟨w, e, rfl, hd, by simp only [coreTurn, hw, runCommand, hd]⟩)
    | ok i => exact .inr (.inr ⟨w, i, rfl, hd, by simp only [coreTurn, hw, runCommand, hd]⟩)

/-- A step that answers a next state is the CORE's turn, a HOST access, a HOST statement, or a reset. -/
theorem step_next {s t : State} (h : step s = .next t) :
    (s.agenda = [] ∧ coreTurn s = .next t) ∨
    (∃ rest, s.agenda = .core :: rest ∧ coreTurn { s with agenda := rest } = .next t) ∨
    (∃ a rest, s.agenda = .access a :: rest ∧ hostAccess a { s with agenda := rest } = .next t) ∨
    (∃ c rest, s.agenda = .stmt c :: rest ∧ hostStatement c { s with agenda := rest } = .next t) ∨
    (∃ rest, s.agenda = .reset :: rest ∧ t = { s with agenda := rest }.resetBlock) := by
  unfold step stepTurn at h
  split at h
  · exact .inl ⟨‹_›, h⟩
  · rename_i u rest hu
    cases u with
    | core => exact .inr (.inl ⟨rest, hu, h⟩)
    | access a => exact .inr (.inr (.inl ⟨a, rest, hu, h⟩))
    | stmt c => exact .inr (.inr (.inr (.inl ⟨c, rest, hu, h⟩)))
    | reset => cases h; exact .inr (.inr (.inr (.inr ⟨rest, hu, rfl⟩)))

end Sys2Proof.Machine
end

