-- ==== Sys2Proof/Laws/Trellis.lean ====
section
/-! SUPPORT. Shapes in the trellis: lengths, and what one visit of add-compare-select changes. -/

namespace Sys2Proof.Machine

@[simp] theorem startMetrics_length (w : Nat) : (startMetrics w).length = 2 ^ w := by simp [startMetrics]

@[simp] theorem acsVisit_length (w : Nat) (masks : List Nat) (rx : Bits) (pm : List (Option Nat))
    (col : List (Option Survivor)) (tr : Nat × Bool) : (acsVisit w masks rx pm col tr).length = col.length := by
  unfold acsVisit; split <;> simp

@[simp] theorem acs_length (w : Nat) (masks : List Nat) (rx : Bits) (pm : List (Option Nat)) :
    (acs w masks rx pm).length = 2 ^ w := by
  have : ∀ (l : List (Nat × Bool)) (col : List (Option Survivor)),
      (l.foldl (acsVisit w masks rx pm) col).length = col.length := by
    intro l
    induction l with
    | nil => intro col; rfl
    | cons tr l ih => intro col; simp [ih]
  simp [acs, this]

@[simp] theorem metricsOf_length (col : List (Option Survivor)) : (metricsOf col).length = col.length := by
  simp [metricsOf]

theorem trellis_append (w : Nat) (masks : List Nat) (gs hs : List Bits) (pm : List (Option Nat))
    (cols : List (List (Option Survivor))) :
    trellis w masks (gs ++ hs) pm cols =
      trellis w masks hs (trellis w masks gs pm cols).1 (trellis w masks gs pm cols).2 := by
  induction gs generalizing pm cols with
  | nil => rfl
  | cons g gs ih => simp [trellis, ih]

@[simp] theorem rxGroups_length (n T : Nat) (rx : Bits) : (rxGroups n T rx).length = T := by simp [rxGroups]

end Sys2Proof.Machine
end

