-- ==== Sys2Proof/Tests/Slice0.lean ====
section
/-! SUPPORT. Tests on small states, one step each, with results taken from the spec's own vectors (95_test_vectors.md, cited
beside each), and for every obligation that has hypotheses a state that meets them all. -/

namespace Sys2Proof.Tests

open Sys2Proof.Machine Sys2Proof.Claims

/-! ### Helpers -/

/-- The next state, if there is one. -/
def nextOf : Result → Option State
  | .next t => some t
  | .fault _ => none
  | .refused _ => none

/-- The refusal, if there is one. -/
def refusalOf : Result → Option Refusal
  | .next _ => none
  | .fault _ => none
  | .refused r => some r

/-- Small parameters whose LMAX is no multiple of 32. -/
def small : Params := { kmax := 4, nmax := 3, lmax := 40, mw := 6, ilCollide := .zeroFillLastWins }

/-- The bytes of an input of at most 32 bits, as LOADBITS stores them. -/
def stored (bits : Bits) : Memory := storeWord small [] 0 (loadWord bits 0)

/-- A block with the small parameters, the polynomials 7, 5, 0 and an input, not configured. -/
def fresh (bits : Bits) : State :=
  { State.boot small [] with
    polyRaw := [7#32, 5#32, 0#32], ibuf := stored bits, ilen := BitVec.ofNat 32 bits.length }

/-- The same, configured with K = 3 and the masks 7, 5. -/
def ready (bits : Bits) : State :=
  { fresh bits with cfgValid := true, cfgK := 3#8, cfgN := 2#8, polyMask := [7#32, 5#32, 0#32] }

/-- 1 0 1 1 0. -/
def b10110 : Bits := [true, false, true, true, false]

/-- 1 1 1 0 1 1 0 1 1 0, the codeword of 1 0 1 1 0 (R125). -/
def coded : Bits := [true, true, true, false, true, true, false, true, true, false]

/-! ### WellFormed, Decode (R71 to R77) -/

theorem test_illformed_parse_index : (Instr.parse 8#8).wellFormed Params.standard = false := by decide
theorem test_wellformed_parse_index : (Instr.parse 7#8).wellFormed Params.standard = true := by decide
theorem test_decode_parse :
    decode Params.standard 0b0001_0000_0000_0000_0000_0000_0000_0111#32 = .ok (.parse 7#8) := by decide
theorem test_decode_config :
    decode Params.standard 0b0010_0000_0000_0101_0000_0010_0000_0000#32 = .ok (.config 5#8 2#8) := by decide
theorem test_decode_encrst :
    decode Params.standard 0b0011_0000_0000_0000_0000_0000_0000_0000#32 = .ok .encrst := by decide
theorem test_decode_encode :
    decode Params.standard 0b0100_0000_0000_0000_0000_0000_0000_0000#32 = .ok .encode := by decide
theorem test_decode_decode :
    decode Params.standard 0b0101_0000_0000_0000_0000_0000_0000_0000#32 = .ok .decode := by decide
theorem test_decode_intlv :
    decode Params.standard 0b0110_0000_0000_0000_0000_0000_0000_0000#32 = .ok .intlv := by decide
theorem test_decode_turbo :
    decode Params.standard 0b0111_0000_0000_0000_0000_0000_0000_0000#32 = .ok .turbo := by decide
/-- Section 3.3: RSV not 0, and PARSE with IDX = NMAX; R75: the all-zero word, an unused field, OP 0x8. -/
theorem test_decode_illegal :
    decode Params.standard 0x41000000#32 = .error .reservedField ∧
    decode Params.standard 0x10000008#32 = .error .polyIndex ∧
    decode Params.standard 0x00000000#32 = .error .opcode ∧
    decode Params.standard 0x30000001#32 = .error .unusedField ∧
    decode Params.standard 0x80000000#32 = .error .opcode := by decide
theorem test_decode_table_word : decodeTableWord 32 0x20030200 = some (.config 3#8 2#8) := by decide

/-! ### The parser (section 2) -/

theorem test_polyParse_171 : polyParse 171#32 = some 0x79 := by decide
theorem test_polyParse_largest : polyParse 4277777777#32 = some 0x22FFFFFF := by decide
theorem test_polyParse_digit_above_7 : polyParse 80#32 = none ∧ polyParse 3482810481#32 = none := by decide
/-- `POLY_RAW[0] = 171`, `PARSE 0`. -/
theorem test_parse :
    (nextOf (step ({ fresh [] with polyRaw := [171#32, 0#32, 0#32] }.withFetchWord 32 0x10000000))).map
      (fun t => (t.parseResult, t.err, t.errInfo, t.busy)) = some (0x79#32, 0#3, 0#32, false) := by decide
theorem test_parse_bad_digit :
    (nextOf (step ({ fresh [] with polyRaw := [0#32, 19#32, 0#32] }.withFetchWord 32 0x10000001))).map
      (fun t => (t.parseResult, t.err, t.errInfo)) = some (0#32, 1#3, 0x00010001#32) := by decide
/-- `CONFIG 3, 2` of P1. -/
theorem test_config :
    (nextOf (step ((fresh []).withFetchWord 32 0x20030200))).map
      (fun t => (t.cfgK, t.cfgN, t.polyMask, t.encReg, statusWord t)) =
        some (3#8, 2#8, [7#32, 5#32, 0#32], 0#32, 0x00000002#32) := by decide
/-- `POLY_RAW[0] = 17`, `CONFIG 3, 1`: the mask 15 is too wide. -/
theorem test_config_mask_too_wide :
    (nextOf (step ({ fresh [] with polyRaw := [17#32, 0#32, 0#32] }.withFetchWord 32 0x20030100))).map
      (fun t => (t.cfgValid, t.err, t.errInfo)) = some (false, 1#3, 0x00020000#32) := by decide

/-! ### The encoder and the decoder (section 3) -/

theorem test_encrst :
    (nextOf (step ({ ready [] with encReg := 2#32 }.withFetchWord 32 0x30000000))).map
      (fun t => (t.encReg, t.err)) = some (0#32, 0#3) := by decide
theorem test_encode :
    (nextOf (step ((ready b10110).withFetchWord 32 0x40000000))).map
      (fun t => (t.obuf, t.olen, t.encReg)) = some (coded, 10#32, 2#32) := by decide +kernel
/-- The stream goes on from ENC_REG = 2 (section 3.1): 1 1 0 gives 11 01 10. -/
theorem test_encode_continues :
    (nextOf (step ({ ready [true, true, false] with encReg := 2#32 }.withFetchWord 32 0x40000000))).map
      (fun t => (t.obuf, t.encReg)) = some ([true, true, false, true, true, false], 2#32) := by decide +kernel
theorem test_decode :
    (nextOf (step ((ready coded).withFetchWord 32 0x50000000))).map
      (fun t => (t.obuf, t.olen, t.encReg)) = some (b10110, 5#32, 0#32) := by decide +kernel
/-- The row with a tie in add-compare-select: 01 00 01 01 gives 0 0 1 1. -/
theorem test_decode_tie :
    (nextOf (step ((ready [false, true, false, false, false, true, false, true]).withFetchWord 32 0x50000000))).map
      (fun t => t.obuf) = some [false, false, true, true] := by decide +kernel
/-- Section 3.3: after reset DECODE ends with ERR 2 and ERR_INFO 3, so STATUS is 0x20. -/
theorem test_decode_unconfigured :
    (nextOf (step (State.reset.withFetchWord 32 0x50000000))).map (fun t => (statusWord t, t.errInfo)) =
      some (0x00000020#32, 3#32) := by decide

/-! ### The interleaver and the turbo encoder (sections 4 and 5) -/

theorem test_intlv :
    (nextOf (step ((fresh b10110).withFetchWord 32 0x60000000))).map (fun t => (t.obuf, t.olen)) =
      some ([true, true, false, false, true], 5#32) := by decide +kernel
/-- L = 7: all positions are 5, and the last write wins. -/
theorem test_intlv_multiple_of_seven :
    (nextOf (step ((fresh [true, false, false, false, false, false, true]).withFetchWord 32 0x60000000))).map
      (fun t => t.obuf) = some [false, false, false, false, false, true, false] := by decide +kernel
theorem test_turbo :
    (nextOf (step ((ready b10110).withFetchWord 32 0x70000000))).map (fun t => (t.obuf, t.olen)) =
      some (b10110 ++ coded ++ [true, true, false, true, true, false, false, false, true, true], 25#32) := by
  decide +kernel
theorem test_turbo_fault_parameter :
    (nextOf (step ({ ready (List.replicate 7 true) with
        params := { small with ilCollide := .fault } }.withFetchWord 32 0x70000000))).map
      (fun t => (t.err, t.errInfo, t.obuf)) = some (3#3, 7#32, []) := by decide

/-! ### The host port and the HOST's program (R52, R78, R230; section 6) -/

/-- The top word of an IBUF of 40 bits keeps 8 bits of what is written. -/
theorem test_write_ibuf_top_word :
    (nextOf (step { fresh [] with agenda := [.access (.write 4 0x10004 0xFFFFFFFF#32)] })).map
      (fun t => (ibufWord t 1, ibufBit t 39, ibufBit t 40)) = some (0xFF000000#32, true, false) := by decide +kernel
theorem test_read_status_while_busy :
    (nextOf (step { (fresh []).issue 0x30000000#32 with agenda := [.access (.read 4 4)] })).map
      (fun t => (t.hostReads, t.hostWaits)) = some ([1#32], true) := by decide
theorem test_reset_abandons_the_command :
    (nextOf (step { (ready b10110).issue 0x40000000#32 with agenda := [.reset] })).map
      (fun t => (t.inFlight, t.cfgValid, t.ilen, t.hostWaits)) = some (none, false, 0#32, false) := by decide
/-- Lines of P1 and P7. -/
theorem test_program_text :
    Text.program "POLYS 7, 5 ; two\nCONFIG 3, 2\nWR CMD, 0x80000000".toList =
      some [.polys [7#32, 5#32], .command (.config 3 2), .wr (.loc .cmd) 0x80000000#32] := by decide +kernel
/-- R78: an index is a number, decimal or hexadecimal. -/
theorem test_hexadecimal_index :
    Text.program "WR POLY_RAW[0x1], 5\nRD OBUF.0x2\nRD POLY_MASK[0xA]\nWR IBUF.1, 0xb".toList =
      some [.wr (.loc (.polyRaw 1)) 5#32, .rd (.loc (.obuf 2)), .rd (.loc (.polyMask 10)),
        .wr (.loc (.ibuf 1)) 11#32] := by decide +kernel

/-! ### Witnesses: a state and operands that meet all hypotheses of each obligation -/

theorem small_legal : small.Legal :=
  { kmax_lo := by decide, kmax_hi := by decide, nmax_lo := by decide, nmax_hi := by decide, lmax_lo := by decide
    lmax_hi := by decide, omax_hi := by decide, mw_wide := by decide }

/-- A configured block after an ENCODE of 1 0 1 1 0, its input still in IBUF. -/
def encoded : State := { ready b10110 with obuf := coded, olen := 10#32, encReg := 2#32 }

/-- The same with the codeword as its input. -/
def received : State := { ready coded with obuf := coded, olen := 10#32, encReg := 2#32 }

theorem ready_inv (bits : Bits) (reg olen : Word) (out : Bits) (busy waits : Bool) (fly : Option Word)
    (turns : List Turn) (hs : (stored bits).wf small = true) (hr : reg.toNat < 4) (ho : out.length = olen.toNat)
    (hl : olen.toNat ≤ 280) (hb : busy = fly.isSome) (hw : busy = true → waits = true) :
    State.Inv { ready bits with
      obuf := out, olen := olen, encReg := reg, busy := busy, hostWaits := waits, inFlight := fly,
      agenda := turns } where
  legal := small_legal
  raw_len := rfl
  mask_len := rfl
  store_wf := hs
  obuf_len := ho
  olen_fits := hl
  parse_fits := (by decide : (0#32).toNat < 2 ^ 30)
  err_code := .inl rfl
  err_info := fun _ => rfl
  busy_eq := hb
  busy_waits := hw
  configured := fun _ =>
    { k_lo := (by decide : 2 ≤ (3#8).toNat), k_hi := (by decide : (3#8).toNat ≤ 4)
      n_lo := (by decide : 1 ≤ (2#8).toNat), n_hi := (by decide : (2#8).toNat ≤ 3)
      masks_fit := (by decide : ∀ j, j < (2#8).toNat → ([7#32, 5#32, 0#32].getD j 0#32).toNat < 2 ^ (3#8).toNat)
      masks_zero := (by decide : ∀ j, j < 3 → (2#8).toNat ≤ j → [7#32, 5#32, 0#32].getD j 0#32 = 0#32)
      reg_fits := hr }
  unconfigured := fun h => by cases h

theorem ready_b10110_inv : (ready b10110).Inv :=
  ready_inv b10110 0 0 [] false false none [] (by decide +kernel) (by decide) rfl (by decide) rfl (by decide)

theorem encoded_inv : encoded.Inv :=
  ready_inv b10110 2 10 coded false false none [] (by decide +kernel) (by decide) rfl (by decide) rfl (by decide)

theorem received_inv : received.Inv :=
  ready_inv coded 2 10 coded false false none [] (by decide +kernel) (by decide) rfl (by decide) rfl (by decide)

/-- A block with a command in progress. -/
def working : State := { ready b10110 with busy := true, hostWaits := true, inFlight := some 0x40000000#32 }

theorem working_inv : working.Inv :=
  ready_inv b10110 0 0 [] true true (some 0x40000000#32) [] (by decide +kernel) (by decide) rfl (by decide) rfl
    (by decide)

theorem received_input : inputBits received = coded := by decide +kernel

theorem encoded_input : inputBits encoded = b10110 := by decide +kernel

theorem witness_DecodeOfEncodeIsTheCommand :
    (Instr.parse 2#8).wellFormed small = true ∧ (Instr.config 255#8 0#8).wellFormed small = true := by decide

theorem witness_DecodedWordIsTheCommandsWord : decode small 0x20FF0000#32 = .ok (.config 255#8 0#8) := by decide

theorem witness_IllegalWordsAndTheirCompletion :
    { working with inFlight := some 0x10000003#32 }.inFlight = some 0x10000003#32 ∧
    decode working.params 0x10000003#32 = .error .polyIndex := by decide

theorem witness_AssemblerGivesTheListedWords :
    small.Legal ∧ assemble small (.parse 2) = some 0x10000002#32 ∧ assemble small (.parse 3) = none ∧
    assemble small (.config 255 0) = some 0x20FF0000#32 ∧ assemble small (.config 256 0) = none :=
  ⟨small_legal, by decide, by decide, by decide, by decide⟩

theorem witness_StepRunsTheDecodedCommand :
    working.inFlight = some 0x40000000#32 ∧ decode working.params 0x40000000#32 = .ok .encode ∧
    working.agenda = [] ∧ (ready b10110).inFlight = none ∧ (ready b10110).agenda = [] := by decide

theorem witness_CmdWriteIssuesTheCommand :
    (ready b10110).hostWaits = false ∧ decode (ready b10110).params 0x40000000#32 = .ok .encode ∧
    working.Inv ∧ working.busy = true := ⟨by decide, by decide, working_inv, rfl⟩

theorem witness_WaitingHostMayOnlyReadStatus :
    working.hostWaits = true ∧ (Access.read 4 0x010) ≠ .read 4 0x004 ∧
    refusalOf (step { working with agenda := [.access (.read 4 0x010)] }) = some .busyProtocol := by decide

theorem witness_CommandStatementRunsToCompletion :
    (ready b10110).busy = false ∧ (ready b10110).hostWaits = false ∧
    assemble (ready b10110).params (.config 3 2) = some 0x20030200#32 := by decide

theorem witness_ResetValues : 7 < State.reset.params.nmax := by decide

/-- The first and the last offset of every reserved range, the read-only words at their ends, an odd width and offset. -/
theorem witness_UnsupportedAccessesAreRefused :
    (ready []).params.Legal ∧ (ready []).hostWaits = false ∧
    (∀ off ∈ [0x024, 0x0FC, 0x10C, 0x1FC, 0x20C, 0x300, 0xFFFC, 0x10008, 0x1FFFC, 0x20024, 0x5FFFC, 0x60000],
      refusalOf (step { ready [] with agenda := [.access (.read 4 off)] }) = some .reservedOffset ∧
      refusalOf (step { ready [] with agenda := [.access (.write 4 off 1#32)] }) = some .reservedOffset) ∧
    (∀ off ∈ [0x004, 0x008, 0x010, 0x014, 0x018, 0x01C, 0x020, 0x200, 0x208, 0x20000, 0x20020],
      refusalOf (step { ready [] with agenda := [.access (.write 4 off 1#32)] }) = some .readOnly) ∧
    refusalOf (step { ready [] with agenda := [.access (.read 2 0x00C)] }) = some .accessWidth ∧
    refusalOf (step { ready [] with agenda := [.access (.read 4 0x00E)] }) = some .misaligned :=
  ⟨small_legal, by decide, by decide +kernel, by decide +kernel, by decide, by decide⟩

theorem witness_StatusWordFields :
    (ready []).hostWaits = false ∧ (statusWord { working with err := 7#3 }) = 0x73#32 := by decide

theorem witness_EveryWordStandsAtItsOffset :
    small.Legal ∧ locExists small (.polyRaw 2) ∧ locExists small (.polyMask 2) ∧ locExists small (.ibuf 1) ∧
    locExists small (.obuf 8) ∧ locate small 0x20020 = some (.obuf 8) ∧ locate small 0x10004 = some (.ibuf 1) :=
  ⟨small_legal, (by decide : 2 < 3), (by decide : 2 < 3), (by decide : 1 < (40 + 31) / 32),
    (by decide : 8 < (280 + 31) / 32), by decide, by decide⟩

theorem witness_RegisterReadsReturnTheRegister :
    (ready b10110).params.Legal ∧ (ready b10110).hostWaits = false ∧
    (∀ c ∈ [(0x004, 2#32), (0x008, 0#32), (0x00C, 5#32), (0x010, 0#32), (0x014, 3#32), (0x018, 2#32), (0x01C, 0#32), (0x020, 0#32),
        (0x100, 7#32), (0x108, 0#32), (0x200, 7#32), (0x204, 5#32), (0x208, 0#32)],
      (nextOf (step { ready b10110 with agenda := [.access (.read 4 c.1)] })).map (fun t => t.hostReads) =
        some [c.2]) :=
  ⟨small_legal, by decide, by decide⟩

theorem witness_BufferWordsPackBitsMsbFirst :
    (ready b10110).params.Legal ∧ (ready b10110).hostWaits = false ∧
    1 < ((ready b10110).params.lmax + 31) / 32 ∧ 8 < ((ready b10110).params.omax + 31) / 32 :=
  ⟨small_legal, by decide, by decide, by decide⟩

theorem witness_ReadsHaveNoSideEffectAndWritesOnlyStore :
    (nextOf (step { working with
      agenda := [.access (.read 4 0x004), .access (.read 4 0x004)] })).isSome = true ∧
    (ready b10110).params.Legal ∧ (ready b10110).hostWaits = false ∧ 2 < (ready b10110).params.nmax ∧
    1 < ((ready b10110).params.lmax + 31) / 32 :=
  ⟨by decide, small_legal, by decide, by decide, by decide⟩

theorem witness_ErrorsAreAllOrNothing :
    (nextOf (exec .decode (ready b10110))).map (fun t => (t.err, t.errInfo)) = some (3#3, 5#32) := by decide

/-- One state for each clause of the table: both errors of ENCODE, DECODE, TURBO, INTLV, PARSE and CONFIG. -/
theorem witness_ErrorOfEachCommand :
    (nextOf (exec .encode (fresh b10110))).map (fun t => (t.err, t.errInfo)) = some (2#3, 3#32) ∧
    (nextOf (exec .encode { ready [] with ilen := 41#32 })).map (fun t => (t.err, t.errInfo)) = some (3#3, 41#32) ∧
    (nextOf (exec .decode { ready [] with ilen := 41#32 })).map (fun t => (t.err, t.errInfo)) = some (3#3, 41#32) ∧
    (nextOf (exec .decode (ready b10110))).map (fun t => (t.err, t.errInfo)) = some (3#3, 5#32) ∧
    (nextOf (exec .intlv { ready [] with ilen := 41#32 })).map (fun t => (t.err, t.errInfo)) = some (3#3, 41#32) ∧
    (nextOf (exec .turbo { ready [] with ilen := 41#32 })).map (fun t => (t.err, t.errInfo)) = some (3#3, 41#32) ∧
    (nextOf (exec (.parse 2#8) { ready [] with polyRaw := [0#32, 0#32, 8#32] })).map (fun t => (t.err, t.errInfo)) =
      some (1#3, 0x10002#32) ∧
    (nextOf (exec (.config 1#8 0#8) (ready []))).map (fun t => (t.err, t.errInfo)) = some (2#3, 1#32) ∧
    (nextOf (exec (.config 5#8 1#8) (ready []))).map (fun t => (t.err, t.errInfo)) = some (2#3, 1#32) ∧
    (nextOf (exec (.config 4#8 0#8) (ready []))).map (fun t => (t.err, t.errInfo)) = some (2#3, 2#32) ∧
    (nextOf (exec (.config 2#8 4#8) (ready []))).map (fun t => (t.err, t.errInfo)) = some (2#3, 2#32) := by
  refine ⟨?_, ?_, ?_, ?_, ?_, ?_, ?_, ?_, ?_, ?_, ?_⟩ <;> decide

theorem witness_OnlyHostTurnsAreRefused :
    refusalOf (step { ready [] with agenda := [.stmt (.command (.parse 3))] }) = some .assemblerRefuses := by decide

theorem witness_CommandsKeepTheirInput :
    (nextOf (exec .encrst (ready b10110))).isSome = true ∧ (nextOf (exec (.parse 2#8) (ready b10110))).isSome = true ∧
    (nextOf (exec (.config 3#8 2#8) (ready b10110))).isSome = true := by decide

theorem witness_PolyParseReadsDecimalDigitsAsOctal :
    (8 ∈ Nat.digits 10 (80#32).toNat ∧ 7 < 8) ∧ (∀ d ∈ Nat.digits 10 (171#32).toNat, d ≤ 7) := by
  constructor <;> norm_num

theorem witness_ParseWritesTheMask :
    (2#8).toNat < { fresh [] with polyRaw := [0#32, 0#32, 171#32] }.params.nmax ∧
    (∀ d ∈ Nat.digits 10 (({ fresh [] with polyRaw := [0#32, 0#32, 171#32] }).polyRaw.getD (2#8).toNat 0#32).toNat,
      d ≤ 7) ∧
    (∃ d ∈ Nat.digits 10 (({ fresh [] with polyRaw := [0#32, 0#32, 80#32] }).polyRaw.getD (2#8).toNat 0#32).toNat,
      7 < d) := by
  refine ⟨by decide, ?_, ⟨8, ?_, by decide⟩⟩ <;> norm_num

theorem witness_ConfigRefusesOperandsOutOfRange :
    (1#8).toNat < 2 ∧ (ready []).params.kmax < (5#8).toNat ∧ 2 ≤ (4#8).toNat ∧ (4#8).toNat ≤ (ready []).params.kmax ∧
    (0#8).toNat < 1 ∧ (ready []).params.nmax < (4#8).toNat := by decide

/-- The last polynomial fails: by a digit, and by its width. -/
theorem witness_ConfigReportsTheFirstBadPolynomial :
    { fresh [] with polyRaw := [7#32, 5#32, 8#32] }.polyRaw.length = (fresh []).params.nmax ∧
    2 ≤ (3#8).toNat ∧ (3#8).toNat ≤ (fresh []).params.kmax ∧ (3#8).toNat ≤ (fresh []).params.nmax ∧ 2 < (3#8).toNat ∧
    polyParse 7#32 = some 7 ∧ polyParse 5#32 = some 5 ∧ 7 < 2 ^ (3#8).toNat ∧ polyParse 8#32 = none ∧
    polyParse 10#32 = some 8 ∧ 2 ^ (3#8).toNat ≤ 8 := by decide

theorem witness_ConfigCommitsTheConfiguration :
    (fresh []).polyRaw.length = (fresh []).params.nmax ∧ (fresh []).params.kmax ≤ 31 ∧ 2 ≤ (3#8).toNat ∧
    (3#8).toNat ≤ (fresh []).params.kmax ∧ 1 ≤ (3#8).toNat ∧ (3#8).toNat ≤ (fresh []).params.nmax ∧
    (∀ j, j < (3#8).toNat → ∃ m, polyParse ((fresh []).polyRaw.getD j 0#32) = some m ∧ m < 2 ^ (3#8).toNat) := by
  refine ⟨rfl, by decide, by decide, by decide, by decide, by decide, fun j hj => ?_⟩
  have : j < 3 := hj
  interval_cases j
  · exact ⟨7, by decide, by decide⟩
  · exact ⟨5, by decide, by decide⟩
  · exact ⟨0, by decide, by decide⟩

theorem witness_OnlyConfigAndResetChangeTheConfiguration :
    (nextOf (step { ready [] with agenda := [.access (.write 4 0x100 8#32)] })).isSome = true ∧
    (nextOf (step ((ready []).issue 0x20030200#32))).isSome = true ∧
    (nextOf (step { ready [] with agenda := [.reset] })).isSome = true := by decide

theorem witness_CfgValidRisesAtConfigAndFallsAtReset :
    (nextOf (exec (.config 3#8 2#8) (fresh []))).map (fun t => t.err) = some 0#3 ∧
    (nextOf (exec (.config 1#8 2#8) (fresh []))).map (fun t => t.err) = some 2#3 ∧
    (nextOf (step (ready []))).isSome = true ∧ (ready []).cfgValid = true ∧ (fresh []).cfgValid = false := by decide

theorem witness_EncodeClosedForm :
    encoded.Inv ∧ encoded.cfgValid = true ∧ encoded.ilen.toNat ≤ encoded.params.lmax ∧ 1 ≤ encoded.ilen.toNat ∧
    4 < encoded.ilen.toNat ∧ 1 < encoded.cfgN.toNat ∧ 1 < encoded.cfgK.toNat - 1 :=
  ⟨encoded_inv, by decide, by decide, by decide, by decide, by decide, by decide⟩

/-- P6: 1 0, then 1 1 0 from ENC_REG = 2, against 1 0 1 1 0 at once. -/
theorem witness_EncodeContinuesTheStream :
    (nextOf (exec .encode (ready [true, false]))).map (fun t => (t.err, t.encReg)) = some (0#3, 2#32) ∧
    (nextOf (exec .encode { ready [true, true, false] with encReg := 2#32 })).map (fun t => t.err) = some 0#3 ∧
    (nextOf (exec .encode (ready b10110))).map (fun t => t.err) = some 0#3 ∧
    inputBits (ready b10110) =
      inputBits (ready [true, false]) ++ inputBits { ready [true, true, false] with encReg := 2#32 } ∧
    (ready b10110).cfgK.toNat ≤ 31 := by
  refine ⟨?_, ?_, ?_, ?_, by decide⟩ <;> decide +kernel

theorem witness_EncodeRateLaw :
    (ready b10110).Inv ∧ (nextOf (exec .encode (ready b10110))).map (fun t => t.err) = some 0#3 :=
  ⟨ready_b10110_inv, by decide +kernel⟩

theorem witness_TopMaskBitIsDead :
    (ready b10110).Inv ∧ (ready b10110).cfgValid = true ∧ (nextOf (exec .encode (ready b10110))).isSome = true :=
  ⟨ready_b10110_inv, by decide, by decide +kernel⟩

theorem witness_OtherCommandsNeitherReadNorWriteEncReg :
    Instr.decode ≠ .encode ∧ Instr.decode ≠ .encrst ∧ (∀ k n, Instr.decode ≠ .config k n) ∧
    (nextOf (exec .decode received)).map (fun t => t.err) = some 0#3 :=
  ⟨by decide, by decide, fun _ _ h => Instr.noConfusion h, by decide +kernel⟩

theorem witness_AcsPerDestination :
    1 ≤ 2 ∧ (metricsOf (acs 2 [7, 5] [true, true] (startMetrics 2))).length = 2 ^ 2 ∧ 3 < 2 ^ 2 := by
  refine ⟨by decide, by simp, by decide⟩

theorem witness_ReachableTrellisStates :
    3 < 2 ^ 2 ∧ (trellisOf 2 [7, 5] [[true, true]]).1 = [some 2, some 0, none, none] := by decide +kernel

theorem witness_MetricsNeverOverflow :
    received.Inv ∧ received.cfgValid = true ∧ received.ilen.toNat ≤ received.params.lmax ∧
    5 ≤ received.ilen.toNat / received.cfgN.toNat ∧
    (trellisOf (received.cfgK.toNat - 1) (tapMasks received) ((receivedGroups received).take 5)).1.getD 3 none = some 2 :=
  ⟨received_inv, by decide, by decide, by decide, by decide +kernel⟩

theorem witness_FinalStateIsTheLeastBest : [some 4, some 2, some 1, some 1].getD 3 none = some 1 := by decide

/-- K = 3 with the masks 6 and 2, neither of which has bit 0 set. -/
def evenMasks (bits : Bits) : State := { ready bits with polyMask := [6#32, 2#32, 0#32] }

theorem evenMasks_inv (bits : Bits) (hs : (stored bits).wf small = true) : (evenMasks bits).Inv :=
  have h : (ready bits).Inv := ready_inv bits 0 0 [] false false none [] hs (by decide) rfl (by decide) rfl (by decide)
  { h with
    configured := fun _ => { h.configured rfl with
      masks_fit := (by decide : ∀ j, j < (2#8).toNat → ([6#32, 2#32, 0#32].getD j 0#32).toNat < 2 ^ (3#8).toNat)
      masks_zero := (by decide : ∀ j, j < 3 → (2#8).toNat ≤ j → [6#32, 2#32, 0#32].getD j 0#32 = 0#32) }
    unconfigured := fun h => by cases h }

theorem witness_DecodeIsMaximumLikelihood :
    received.Inv ∧ received.cfgValid = true ∧ received.ilen.toNat ≤ received.params.lmax ∧
    received.ilen.toNat % received.cfgN.toNat = 0 ∧ b10110.length = received.ilen.toNat / received.cfgN.toNat :=
  ⟨received_inv, by decide, by decide, by decide, by decide⟩

theorem witness_RoundTrip :
    (ready b10110).Inv ∧ received.Inv ∧ received.cfgValid = true ∧ (ready b10110).encReg = 0#32 ∧
    (nextOf (exec .encode (ready b10110))).map (fun t => (t.err, t.obuf)) = some (0#3, inputBits received) ∧
    received.cfgK = (ready b10110).cfgK ∧ received.cfgN = (ready b10110).cfgN ∧
    received.polyMask = (ready b10110).polyMask ∧ received.ilen.toNat ≤ received.params.lmax ∧
    (0 < (ready b10110).cfgN.toNat ∧ maskBit (ready b10110) 0 0 = true) ∧ 1 ≤ (ready b10110).ilen.toNat :=
  ⟨ready_b10110_inv, received_inv, by decide, by decide, by decide +kernel, by decide, by decide, by decide, by decide,
    by decide, by decide⟩

/-- No mask with bit 0 set: 1 0 1 gives 00 11 00, since each output is the bit before (R128). -/
theorem witness_RoundTrip_no_mask_with_bit_zero :
    (evenMasks [true, false, true]).Inv ∧ (evenMasks [false, false, true, true, false, false]).Inv ∧
    (evenMasks [true, false, true]).cfgValid = true ∧ (evenMasks [true, false, true]).encReg = 0#32 ∧
    (nextOf (exec .encode (evenMasks [true, false, true]))).map (fun t => (t.err, t.obuf)) =
      some (0#3, inputBits (evenMasks [false, false, true, true, false, false])) ∧
    (evenMasks [false, false, true, true, false, false]).ilen.toNat ≤ small.lmax ∧
    (∀ j, j < (evenMasks [true, false, true]).cfgN.toNat → maskBit (evenMasks [true, false, true]) j 0 = false) ∧
    1 ≤ (evenMasks [true, false, true]).ilen.toNat :=
  ⟨evenMasks_inv _ (by decide +kernel), evenMasks_inv _ (by decide +kernel), by decide, by decide, by decide +kernel,
    by decide, by decide, by decide⟩

/-- The last bit flipped, where the last message bit is 1 (section 1: 11 01 01 00 decodes to 1 1 1 0), and where it is 0;
then the first bit of the last group (position 2T - 2), and the last bit of the group before, for both messages. -/
theorem witness_SingleFlipIsCorrected :
    (ready [true, true, false, true, false, true, false, false]).cfgValid = true ∧
    (ready coded).polyMask.take 2 = [7#32, 5#32] ∧ 7 < 2 * [true, true, true, true].length ∧
    inputBits (ready [true, true, false, true, false, true, false, false]) =
      flipAt (codeword 2 [7, 5] 0 [true, true, true, true]) 7 ∧
    inputBits (ready [true, true, true, false, true, true, false, true, true, true]) =
      flipAt (codeword 2 [7, 5] 0 b10110) 9 ∧
    inputBits (ready [true, true, false, true, false, true, true, true]) =
      flipAt (codeword 2 [7, 5] 0 [true, true, true, true]) 6 ∧
    inputBits (ready [true, true, true, false, true, true, false, true, false, false]) =
      flipAt (codeword 2 [7, 5] 0 b10110) 8 ∧
    inputBits (ready [true, true, false, true, false, false, false, true]) =
      flipAt (codeword 2 [7, 5] 0 [true, true, true, true]) 5 ∧
    inputBits (ready [true, true, true, false, true, true, false, false, true, false]) =
      flipAt (codeword 2 [7, 5] 0 b10110) 7 := by
  refine ⟨by decide, by decide, by decide, ?_, ?_, ?_, ?_, ?_, ?_⟩ <;> decide +kernel

theorem witness_PositionMapIsABijectionOffMultiplesOfSeven :
    0 < 5 ∧ 5 % 7 ≠ 0 ∧ b10110.length = 5 ∧ 7 * 3 % 5 = 1 % 5 ∧ 4 < 5 := by decide

theorem witness_IntlvScattersTheInput :
    (fresh b10110).ilen.toNat ≤ (fresh b10110).params.lmax ∧ (fresh b10110).ilen.toNat % 7 ≠ 0 ∧
    (fresh []).ilen.toNat = 0 ∧ 4 < (fresh b10110).ilen.toNat := by decide

theorem witness_IntlvAtMultiplesOfSeven :
    (ready (List.replicate 7 true)).ilen.toNat ≤ (ready (List.replicate 7 true)).params.lmax ∧
    (ready (List.replicate 7 true)).ilen.toNat % 7 = 0 ∧ (ready (List.replicate 7 true)).ilen.toNat ≠ 0 ∧
    (ready (List.replicate 7 true)).params.ilCollide = .zeroFillLastWins ∧
    { ready (List.replicate 7 true) with params := { small with ilCollide := .fault } }.params.ilCollide = .fault ∧
    (∀ i, i < 7 → (i * 7 + 5) % 7 ≠ 6) := by decide

theorem witness_TurboStreams :
    (ready b10110).Inv ∧ (ready b10110).cfgValid = true ∧
    (ready b10110).ilen.toNat ≤ (ready b10110).params.lmax ∧ (ready b10110).ilen.toNat % 7 ≠ 0 ∧
    4 < (ready b10110).ilen.toNat ∧ 1 < (ready b10110).cfgN.toNat ∧ 1 ≤ (ready b10110).ilen.toNat :=
  ⟨ready_b10110_inv, by decide, by decide, by decide, by decide, by decide, by decide⟩

theorem witness_TurboLaws :
    (ready b10110).Inv ∧ (nextOf (exec .turbo (ready b10110))).map (fun t => t.err) = some 0#3 ∧
    (ready b10110).cfgK = 3#8 :=
  ⟨ready_b10110_inv, by decide +kernel, by decide⟩

theorem witness_TurboDependsOnlyOnInputAndConfiguration :
    inputBits { encoded with treg1 := 3#2, treg2 := 1#2 } = inputBits (ready b10110) ∧
    (nextOf (exec .turbo (ready b10110))).map (fun t => t.err) = some 0#3 ∧
    (nextOf (exec .turbo { encoded with treg1 := 3#2, treg2 := 1#2 })).map (fun t => t.err) = some 0#3 := by
  refine ⟨?_, ?_, ?_⟩ <;> decide +kernel

/-- The two inputs differ at bit 5, which is at ILEN. -/
theorem witness_BitsAboveIlenNeverInfluenceAResult :
    (∀ n, n < (ready b10110).ilen.toNat →
      ibufBit { ready b10110 with ibuf := stored (b10110 ++ [true]), ibufEra := 9 } n = ibufBit (ready b10110) n) ∧
    ibufBit { ready b10110 with ibuf := stored (b10110 ++ [true]), ibufEra := 9 } 5 ≠ ibufBit (ready b10110) 5 := by
  refine ⟨?_, ?_⟩ <;> decide +kernel

theorem witness_OutputBufferAfterADataCommand :
    (ready b10110).Inv ∧ (nextOf (exec .encode (ready b10110))).map (fun t => t.err) = some 0#3 ∧
    (nextOf (exec .decode (ready b10110))).map (fun t => t.err) = some 3#3 :=
  ⟨ready_b10110_inv, by decide +kernel, by decide⟩

theorem witness_LoadbitsGivesTheInputSequence :
    (fresh []).params.Legal ∧ (fresh []).hostWaits = false ∧
    (List.replicate 40 true).length ≤ (fresh []).params.lmax :=
  ⟨small_legal, by decide, by decide⟩

theorem witness_CopyoutMakesTheResultTheInput :
    encoded.Inv ∧ encoded.hostWaits = false ∧ encoded.olen.toNat ≤ encoded.params.lmax :=
  ⟨encoded_inv, by decide, by decide⟩

theorem witness_EveryStepKeepsTheInvariant :
    working.Inv ∧ (nextOf (step working)).map (fun t => (t.err, t.olen, t.busy)) = some (0#3, 10#32, false) :=
  ⟨working_inv, by decide +kernel⟩

end Sys2Proof.Tests
end

section
/-! PROOFS. The decoder as maximum-likelihood sequence estimation (R2, R143 to R152): add-compare-select keeps a cheapest
candidate for every destination, so by induction on the steps each metric is the least distance of a path that ends in its
state, and the traceback is such a path. -/

namespace Sys2Proof.Machine

open Sys2Proof.Claims

/-! ### Hamming distance and the received groups -/

theorem hammingDistance_append {a b : Bits} (h : a.length = b.length) (c d : Bits) :
    hammingDistance (a ++ c) (b ++ d) = hammingDistance a b + hammingDistance c d := by
  simp [hammingDistance, List.zipWith_append h, List.countP_append]

theorem length_flatten_of_width {n : Nat} {groups : List Bits} (h : ∀ g ∈ groups, g.length = n) :
    groups.flatten.length = groups.length * n := by
  rw [List.length_flatten, List.map_congr_left h, List.map_const', List.sum_replicate_nat]

theorem rxGroups_succ (n T : Nat) (rx : Bits) :
    rxGroups n (T + 1) rx = rxGroups n T rx ++ [(rx.drop (T * n)).take n] := by
  simp [rxGroups, List.range_succ]

/-- The groups of R144 are the received sequence, cut. -/
theorem rxGroups_flatten (n T : Nat) (rx : Bits) : (rxGroups n T rx).flatten = rx.take (T * n) := by
  induction T with
  | zero => simp [rxGroups]
  | succ T ih => rw [rxGroups_succ, List.flatten_append, ih, List.flatten_singleton, Nat.succ_mul, List.take_add]

theorem length_of_mem_rxGroups {n T : Nat} {rx g : Bits} (hlen : T * n ≤ rx.length) (hg : g ∈ rxGroups n T rx) :
    g.length = n := by
  obtain ⟨t, ht, rfl⟩ := List.mem_map.mp hg
  have fits : (t + 1) * n ≤ T * n := Nat.mul_le_mul_right n (List.mem_range.mp ht)
  rw [Nat.succ_mul] at fits
  rw [List.length_take, List.length_drop]
  omega

/-- One more input bit adds the branch metric of its transition (R142, R145) to the distance of the codeword. -/
theorem hammingDistance_codeword_snoc {w : Nat} {masks : List Nat} {groups : List Bits}
    (hw : ∀ g ∈ groups, g.length = masks.length) {bs : Bits} (hb : bs.length = groups.length) (reg : Nat) (b : Bool)
    (rx : Bits) :
    hammingDistance (codeword w masks reg (bs ++ [b])) (groups ++ [rx]).flatten =
      hammingDistance (codeword w masks reg bs) groups.flatten + branchMetric w masks rx (shiftIn w reg bs) b := by
  have hlen : (codeword w masks reg bs).length = groups.flatten.length := by
    rw [codeword_length, length_flatten_of_width hw, hb]
  simp [codeword_append, hammingDistance_append hlen, codeword, branchMetric]

/-! ### Add-compare-select, one destination at a time -/

/-- What the transition `tr` offers to destination `d` (R146, R147): nothing when it leads elsewhere, or comes from an
UNREACHED state. -/
def candidate (w : Nat) (masks : List Nat) (rx : Bits) (pm : List (Option Nat)) (d : Nat) (tr : Nat × Bool) :
    Option Survivor :=
  if encStep w tr.1 tr.2 = d then
    (pm.getD tr.1 none).map (fun m => ⟨m + branchMetric w masks rx tr.1 tr.2, tr.1, tr.2⟩)
  else none

/-- The survivor among candidates that come one after another (R147), `o` being there already. -/
def selectAll (o : Option Survivor) (cs : List Survivor) : Option Survivor := cs.foldl (fun o c => select c o) o

theorem candidate_eq_some {w : Nat} {masks : List Nat} {rx : Bits} {pm : List (Option Nat)} {d : Nat} {tr : Nat × Bool}
    {v : Survivor} :
    candidate w masks rx pm d tr = some v ↔ encStep w tr.1 tr.2 = d ∧ ∃ m, pm.getD tr.1 none = some m ∧
      ⟨m + branchMetric w masks rx tr.1 tr.2, tr.1, tr.2⟩ = v := by
  simp [candidate]

theorem acsVisit_getD {w : Nat} {masks : List Nat} {rx : Bits} {pm : List (Option Nat)}
    {col : List (Option Survivor)} {d : Nat} (hd : d < col.length) (tr : Nat × Bool) :
    (acsVisit w masks rx pm col tr).getD d none =
      selectAll (col.getD d none) (candidate w masks rx pm d tr).toList := by
  cases hm : pm.getD tr.1 none with
  | none => simp only [acsVisit, candidate, hm, Option.map_none, ite_self]; rfl
  | some m =>
    simp only [acsVisit, candidate, hm, Option.map_some]
    split
    case isTrue hs => simp [selectAll, hs, hd]
    case isFalse hs => simp [selectAll, hs, hd]

theorem foldl_acsVisit_getD {w : Nat} {masks : List Nat} {rx : Bits} {pm : List (Option Nat)} {d : Nat}
    (trs : List (Nat × Bool)) {col : List (Option Survivor)} (hd : d < col.length) :
    (trs.foldl (acsVisit w masks rx pm) col).getD d none =
      selectAll (col.getD d none) (trs.filterMap (candidate w masks rx pm d)) := by
  induction trs generalizing col with
  | nil => rfl
  | cons tr trs ih =>
    rw [List.foldl_cons, ih (by simpa using hd), acsVisit_getD hd]
    cases hc : candidate w masks rx pm d tr <;> simp [selectAll, hc]

/-- `ACS(t)` destination by destination: the selection among the candidates for `d`, in the order of R147. -/
theorem acs_getD {w d : Nat} (hd : d < 2 ^ w) (masks : List Nat) (rx : Bits) (pm : List (Option Nat)) :
    (acs w masks rx pm).getD d none = selectAll none ((transitions w).filterMap (candidate w masks rx pm d)) := by
  rw [acs, foldl_acsVisit_getD _ (by simpa using hd)]
  simp [hd]

theorem select_eq_or (c : Survivor) (o : Option Survivor) : select c o = some c ∨ select c o = o := by
  cases o with
  | none => exact .inl rfl
  | some old => exact ite_eq_or_eq (c.metric < old.metric) (some c) (some old)

theorem selectAll_mem {v : Survivor} (cs : List Survivor) {o : Option Survivor} (h : selectAll o cs = some v) :
    o = some v ∨ v ∈ cs := by
  induction cs generalizing o with
  | nil => exact .inl h
  | cons c cs ih =>
    obtain hs | hv := ih h
    · obtain hc | ho := select_eq_or c o
      · exact .inr (by simp [Option.some.inj (hc.symm.trans hs)])
      · exact .inl (ho.symm.trans hs)
    · exact .inr (List.mem_cons_of_mem c hv)

theorem select_le (c : Survivor) (o : Option Survivor) :
    ∃ v, select c o = some v ∧ v.metric ≤ c.metric ∧ ∀ old, o = some old → v.metric ≤ old.metric := by
  cases o with
  | none => exact ⟨c, rfl, le_rfl, by simp⟩
  | some old =>
    by_cases h : c.metric < old.metric
    · exact ⟨c, by simp [select, h], le_rfl, by simpa using h.le⟩
    · exact ⟨old, by simp [select, h], by omega, by simp⟩

theorem selectAll_le {c : Survivor} (cs : List Survivor) {o : Option Survivor} (h : o = some c ∨ c ∈ cs) :
    ∃ v, selectAll o cs = some v ∧ v.metric ≤ c.metric := by
  induction cs generalizing o c with
  | nil => exact ⟨c, by simpa [selectAll] using h, le_rfl⟩
  | cons x cs ih =>
    obtain ⟨u, hu, hux, huo⟩ := select_le x o
    obtain ⟨v, hv, hvu⟩ := ih (.inl hu)
    rcases h with ho | hc
    · exact ⟨v, hv, hvu.trans (huo c ho)⟩
    · rcases List.mem_cons.mp hc with rfl | hc
      · exact ⟨v, hv, hvu.trans hux⟩
      · exact ih (.inr hc)

theorem mem_transitions {w s : Nat} (hs : s < 2 ^ w) (b : Bool) : (s, b) ∈ transitions w := by
  cases b <;> simp [transitions, hs]

/-- A survivor is a transition into its destination, with the metric of R146. -/
theorem acs_sound {w : Nat} {masks : List Nat} {rx : Bits} {pm : List (Option Nat)} {d : Nat} {v : Survivor}
    (h : (acs w masks rx pm).getD d none = some v) :
    encStep w v.pred v.bit = d ∧
      ∃ m, pm.getD v.pred none = some m ∧ v.metric = m + branchMetric w masks rx v.pred v.bit := by
  have hd : d < 2 ^ w := by
    by_contra hd
    rw [List.getD_eq_default _ _ (by simpa using hd)] at h
    cases h
  rw [acs_getD hd] at h
  obtain h | h := selectAll_mem _ h
  · cases h
  · obtain ⟨tr, -, htr⟩ := List.mem_filterMap.mp h
    obtain ⟨hstep, m, hm, rfl⟩ := candidate_eq_some.mp htr
    exact ⟨hstep, m, hm, rfl⟩

/-- No transition from a reached state is cheaper than the survivor of its destination. -/
theorem acs_le {w : Nat} {masks : List Nat} {pm : List (Option Nat)} {s m : Nat} (hs : s < 2 ^ w)
    (hm : pm.getD s none = some m) (rx : Bits) (b : Bool) :
    ∃ v, (acs w masks rx pm).getD (encStep w s b) none = some v ∧ v.metric ≤ m + branchMetric w masks rx s b := by
  rw [acs_getD (encStep_lt w s b)]
  exact selectAll_le (c := ⟨m + branchMetric w masks rx s b, s, b⟩) _ (.inr (List.mem_filterMap.mpr
    ⟨(s, b), mem_transitions hs b, candidate_eq_some.mpr ⟨rfl, m, hm, rfl⟩⟩))

/-! ### The metrics and the trellis -/

theorem startMetrics_getD (w d : Nat) : (startMetrics w).getD d none = if d = 0 then some 0 else none := by
  by_cases hd : d < 2 ^ w
  · simp [startMetrics, hd]
  · have : d ≠ 0 := by rintro rfl; exact hd (by positivity)
    rw [List.getD_eq_default _ _ (by simpa using hd), if_neg this]

theorem metricsOf_getD (col : List (Option Survivor)) (d : Nat) :
    (metricsOf col).getD d none = (col.getD d none).map Survivor.metric := by
  simp only [metricsOf, List.getD_eq_getElem?_getD, List.getElem?_map]
  cases col[d]? <;> rfl

theorem trellisOf_snoc (w : Nat) (masks : List Nat) (groups : List Bits) (rx : Bits) :
    trellisOf w masks (groups ++ [rx]) =
      (metricsOf (acs w masks rx (trellisOf w masks groups).1),
        acs w masks rx (trellisOf w masks groups).1 :: (trellisOf w masks groups).2) := by
  simp [trellisOf, trellis_append, trellis]

theorem trellisOf_columns_length (w : Nat) (masks : List Nat) (groups : List Bits) :
    (trellisOf w masks groups).2.length = groups.length := by
  induction groups using List.reverseRecOn with
  | nil => rfl
  | append_singleton groups rx ih => simp [trellisOf_snoc, ih]

/-- What the steps have selected so far, for every sequence: its end state is reached, at no higher cost (R146, R147). -/
theorem trellisOf_le {w : Nat} {masks : List Nat} {groups : List Bits} (hw : ∀ g ∈ groups, g.length = masks.length)
    {bs : Bits} (hb : bs.length = groups.length) :
    ∃ m, (trellisOf w masks groups).1.getD (shiftIn w 0 bs) none = some m ∧
      m ≤ hammingDistance (codeword w masks 0 bs) groups.flatten := by
  induction groups using List.reverseRecOn generalizing bs with
  | nil =>
    obtain rfl := List.length_eq_zero_iff.mp hb
    exact ⟨0, startMetrics_getD w 0, Nat.zero_le _⟩
  | append_singleton groups rx ih =>
    obtain rfl | ⟨bs, b, rfl⟩ := List.eq_nil_or_concat' bs
    · simp at hb
    have hb : bs.length = groups.length := by simpa using hb
    have hw : ∀ g ∈ groups, g.length = masks.length := fun g hg => hw g (List.mem_append_left _ hg)
    obtain ⟨m, hm, hle⟩ := ih hw hb
    obtain ⟨v, hv, hvle⟩ := acs_le (masks := masks) (shiftIn_lt (by positivity) bs) hm rx b
    refine ⟨v.metric, ?_, ?_⟩
    · rw [trellisOf_snoc, metricsOf_getD, shiftIn_append, shiftIn_cons, shiftIn_nil, hv, Option.map_some]
    · rw [hammingDistance_codeword_snoc hw hb]
      omega

/-! ### The traceback -/

theorem traceback_append (cols : List (List (Option Survivor))) (s : Nat) (bs : Bits) :
    traceback cols s bs = traceback cols s [] ++ bs := by
  induction cols generalizing s bs with
  | nil => rfl
  | cons col cols ih =>
    simp only [traceback]
    split <;> rw [ih, ih _ [_], List.append_assoc, List.singleton_append]

theorem traceback_cons_of_some {col : List (Option Survivor)} {s : Nat} {v : Survivor} (h : col.getD s none = some v)
    (cols : List (List (Option Survivor))) : traceback (col :: cols) s [] = traceback cols v.pred [] ++ [v.bit] := by
  rw [traceback, h]
  exact traceback_append ..

theorem traceback_length (cols : List (List (Option Survivor))) (s : Nat) (bs : Bits) :
    (traceback cols s bs).length = cols.length + bs.length := by
  induction cols generalizing s bs with
  | nil => simp [traceback]
  | cons col cols ih =>
    simp only [traceback]
    split <;> simp [ih] <;> omega

/-- The traceback from a reached state is a path from state 0 to that state, and the state's metric is its distance from
the received groups (R147, R151). -/
theorem traceback_trellisOf {w : Nat} {masks : List Nat} {groups : List Bits}
    (hw : ∀ g ∈ groups, g.length = masks.length) {d m : Nat} (h : (trellisOf w masks groups).1.getD d none = some m) :
    shiftIn w 0 (traceback (trellisOf w masks groups).2 d []) = d ∧
      hammingDistance (codeword w masks 0 (traceback (trellisOf w masks groups).2 d [])) groups.flatten = m := by
  induction groups using List.reverseRecOn generalizing d m with
  | nil =>
    obtain ⟨rfl, rfl⟩ : d = 0 ∧ 0 = m := by simpa using (startMetrics_getD w d).symm.trans h
    exact ⟨rfl, rfl⟩
  | append_singleton groups rx ih =>
    have hw : ∀ g ∈ groups, g.length = masks.length := fun g hg => hw g (List.mem_append_left _ hg)
    rw [trellisOf_snoc] at h ⊢
    rw [metricsOf_getD, Option.map_eq_some_iff] at h
    obtain ⟨v, hv, rfl⟩ := h
    obtain ⟨hstep, m, hm, hmetric⟩ := acs_sound hv
    obtain ⟨hend, hdist⟩ := ih hw hm
    have hlen : (traceback (trellisOf w masks groups).2 v.pred []).length = groups.length := by
      simp [traceback_length, trellisOf_columns_length]
    rw [traceback_cons_of_some hv]
    exact ⟨by simp [shiftIn_append, hend, hstep],
      by rw [hammingDistance_codeword_snoc hw hlen, hdist, hend, hmetric]⟩

/-! ### The final state -/

/-- `best` is the least metric below state `n`, with the lowest state that has it (R150). -/
def IsBestBelow (pm : List (Option Nat)) (n : Nat) : Option (Nat × Nat) → Prop
  | none => ∀ d < n, pm.getD d none = none
  | some (m, s) => pm.getD s none = some m ∧ s < n ∧
      ∀ d < n, ∀ m', pm.getD d none = some m' → m ≤ m' ∧ (m = m' → s ≤ d)

theorem bestVisit_isBestBelow {pm : List (Option Nat)} {n : Nat} {best : Option (Nat × Nat)}
    (h : IsBestBelow pm n best) : IsBestBelow pm (n + 1) (bestVisit pm best n) := by
  cases hn : pm.getD n none with
  | none =>
    have hkeep : bestVisit pm best n = best := by simp only [bestVisit, hn]
    rw [hkeep]
    cases best with
    | none => exact Nat.forall_lt_succ_right.mpr ⟨h, hn⟩
    | some b =>
      obtain ⟨hb, hlt, hmin⟩ := h
      exact ⟨hb, by omega, Nat.forall_lt_succ_right.mpr ⟨hmin, fun m' hm' => nomatch hn.symm.trans hm'⟩⟩
  | some m =>
    have only : ∀ m', pm.getD n none = some m' → m = m' := fun m' hm' => Option.some.inj (hn.symm.trans hm')
    cases best with
    | none =>
      simp only [bestVisit, hn]
      exact ⟨hn, by omega, Nat.forall_lt_succ_right.mpr
        ⟨fun d hd m' hm' => (nomatch (h d hd).symm.trans hm'), fun m' hm' => ⟨(only m' hm').le, fun _ => le_rfl⟩⟩⟩
    | some b =>
      obtain ⟨m0, s0⟩ := b
      obtain ⟨hb, hlt, hmin⟩ := h
      simp only [bestVisit, hn]
      split
      case isTrue hm =>
        refine ⟨hn, by omega, Nat.forall_lt_succ_right.mpr
          ⟨fun d hd m' hm' => ?_, fun m' hm' => ⟨(only m' hm').le, fun _ => le_rfl⟩⟩⟩
        have := (hmin d hd m' hm').1
        omega
      case isFalse hm =>
        refine ⟨hb, by omega, Nat.forall_lt_succ_right.mpr ⟨hmin, fun m' hm' => ?_⟩⟩
        have := only m' hm'
        omega

theorem foldl_bestVisit_isBestBelow (pm : List (Option Nat)) (n : Nat) :
    IsBestBelow pm n ((List.range n).foldl (bestVisit pm) none) := by
  induction n with
  | zero => simp [IsBestBelow]
  | succ n ih => simpa [List.range_succ] using bestVisit_isBestBelow ih

/-- The final state has the least metric, and is the lowest such state (R150). -/
theorem finalState_best {pm : List (Option Nat)} {d m : Nat} (h : pm.getD d none = some m) :
    ∃ best, pm.getD (finalState pm) none = some best ∧ best ≤ m ∧ (best = m → finalState pm ≤ d) := by
  have hd : d < pm.length := by
    by_contra hd
    rw [List.getD_eq_default _ _ (by omega)] at h
    cases h
  have hbest := foldl_bestVisit_isBestBelow pm pm.length
  rw [finalState]
  cases hf : (List.range pm.length).foldl (bestVisit pm) none with
  | none =>
    rw [hf] at hbest
    exact nomatch (hbest d hd).symm.trans h
  | some b =>
    obtain ⟨best, f⟩ := b
    rw [hf] at hbest
    obtain ⟨hm, -, hmin⟩ := hbest
    exact ⟨best, hm, hmin d hd m h⟩

/-! ### The decoded sequence -/

theorem viterbi_eq_traceback (w : Nat) (masks : List Nat) (groups : List Bits) :
    viterbi w masks groups =
      traceback (trellisOf w masks groups).2 (finalState (trellisOf w masks groups).1) [] := rfl

@[simp] theorem viterbi_length (w : Nat) (masks : List Nat) (groups : List Bits) :
    (viterbi w masks groups).length = groups.length := by
  simp [viterbi_eq_traceback, traceback_length, trellisOf_columns_length]

/-- Maximum likelihood (R2): no sequence of as many bits has a codeword nearer to the received groups. -/
theorem viterbi_distance_le {w : Nat} {masks : List Nat} {groups : List Bits}
    (hw : ∀ g ∈ groups, g.length = masks.length) {bs : Bits} (hb : bs.length = groups.length) :
    hammingDistance (codeword w masks 0 (viterbi w masks groups)) groups.flatten ≤
      hammingDistance (codeword w masks 0 bs) groups.flatten := by
  obtain ⟨m, hm, hle⟩ := trellisOf_le (w := w) hw hb
  obtain ⟨best, hbest, hbm, -⟩ := finalState_best hm
  obtain ⟨-, hdist⟩ := traceback_trellisOf hw hbest
  rw [viterbi_eq_traceback, hdist]
  exact hbm.trans hle

/-! ### DECODE -/

theorem tapMasks_length_of_inv {s : State} (hinv : s.Inv) (hc : s.cfgValid = true) :
    (tapMasks s).length = s.cfgN.toNat :=
  tapMasks_length (by rw [hinv.mask_len]; exact (hinv.configured hc).n_hi)

/-- DECODE succeeds from a configured block on at most LMAX bits that are whole groups (R152). -/
theorem execDecode_success {s : State} (hc : s.cfgValid = true) (hl : s.ilen.toNat ≤ s.params.lmax)
    (hm : s.ilen.toNat % s.cfgN.toNat = 0) :
    exec .decode s = .next (s.output (viterbi (s.cfgK.toNat - 1) (tapMasks s) (receivedGroups s))
      (s.ilen.toNat / s.cfgN.toNat)).succeed := by
  obtain ⟨h, -⟩ | ⟨-, h | h, -⟩ | ⟨-, -, -, h⟩ := execDecode_cases s
  · simp [hc] at h
  · omega
  · exact absurd hm h
  · exact h

theorem receivedGroups_flatten {s : State} (hm : s.ilen.toNat % s.cfgN.toNat = 0) :
    (receivedGroups s).flatten = inputBits s := by
  rw [receivedGroups, rxGroups_flatten, Nat.div_mul_cancel (Nat.dvd_of_mod_eq_zero hm)]
  exact List.take_of_length_le (by simp)

theorem length_of_mem_receivedGroups {s : State} {g : Bits} (hg : g ∈ receivedGroups s) : g.length = s.cfgN.toNat :=
  length_of_mem_rxGroups (by simpa using Nat.div_mul_le_self _ _) hg

/-- Settles O41: `execDecode_success` gives the completion and its frame, `viterbi_distance_le` the optimality. -/
theorem decodeIsMaximumLikelihood : Obligations.DecodeIsMaximumLikelihood := by
  unfold Obligations.DecodeIsMaximumLikelihood
  intro s hinv hc hl hm
  have hwidth : ∀ g ∈ receivedGroups s, g.length = (tapMasks s).length := fun g hg => by
    rw [length_of_mem_receivedGroups hg, tapMasks_length_of_inv hinv hc]
  have hlen : (receivedGroups s).length = s.ilen.toNat / s.cfgN.toNat := rxGroups_length ..
  refine ⟨_, execDecode_success hc hl hm, rfl, ?_, ?_, rfl, fun B hB => ?_⟩
  · have : s.ilen.toNat / s.cfgN.toNat ≤ s.ilen.toNat := Nat.div_le_self _ _
    simpa using by omega
  · simpa using hlen
  · simpa [receivedGroups_flatten hm] using viterbi_distance_le hwidth (hB.trans hlen.symm)

end Sys2Proof.Machine
end

section
/-! PROOFS. The rules of the turns: what the CORE's turn and a HOST access answer (R31, R55 to R58, R220), and where every
word of the register map stands (R30, R53). -/

namespace Sys2Proof.Machine

open Sys2Proof.Claims

variable {s : State}

/-! ### The CORE's turn -/

theorem step_of_agenda_nil (h : s.agenda = []) : step s = coreTurn s := by simp only [step, stepTurn, h]

theorem step_core (s : State) (rest : List Turn) :
    step { s with agenda := .core :: rest } = coreTurn { s with agenda := rest } := rfl

theorem coreTurn_idle (h : s.inFlight = none) : coreTurn s = .next s := by simp only [coreTurn, h]

theorem coreTurn_of_decode {w : Word} {i : Instr} (hw : s.inFlight = some w) (hd : decode s.params w = .ok i) :
    coreTurn s = exec i s := by simp only [coreTurn, hw, runCommand, hd]

/-! ### A HOST access by the word it is to -/

theorem step_access (s : State) (a : Access) (rest : List Turn) :
    step { s with agenda := .access a :: rest } = hostAccess a { s with agenda := rest } := rfl

section Access

variable {bytes off : Nat} {l : Loc} {v : Word} {r : Refusal}

theorem noteRead_of_free (hw : s.hostWaits = false) (l : Loc) (v : Word) :
    noteRead s l v = { s with hostReads := v :: s.hostReads } := by simp [noteRead, hw]

theorem hostAccess_read_ok (ht : target s.params bytes off = .ok l) (hw : s.hostWaits = false)
    (hv : readLoc s l = .ok v) :
    hostAccess (.read bytes off) s = .next { s with hostReads := v :: s.hostReads } := by
  rw [← noteRead_of_free hw l v]
  simp [hostAccess, ht, hw, hv]

theorem hostAccess_read_error (ht : target s.params bytes off = .ok l) (hw : s.hostWaits = false)
    (hv : readLoc s l = .error r) : hostAccess (.read bytes off) s = .refused r := by
  simp [hostAccess, ht, hw, hv]

theorem hostAccess_write_ok {t : State} (ht : target s.params bytes off = .ok l) (hw : s.hostWaits = false)
    (hv : writeLoc s v l = .ok t) : hostAccess (.write bytes off v) s = .next t := by
  simp [hostAccess, ht, hw, hv]

theorem hostAccess_write_error (ht : target s.params bytes off = .ok l) (hw : s.hostWaits = false)
    (hv : writeLoc s v l = .error r) : hostAccess (.write bytes off v) s = .refused r := by
  simp [hostAccess, ht, hw, hv]

theorem hostAccess_write_waiting (ht : target s.params bytes off = .ok l) (hw : s.hostWaits = true) :
    hostAccess (.write bytes off v) s = .refused .busyProtocol := by
  simp [hostAccess, ht, hw]

end Access

/-! ### The register map -/

theorem offset_mod_four (l : Loc) : l.offset % 4 = 0 := by
  cases l <;> simp only [Loc.offset, ibufBase, obufBase] <;> omega

theorem ibufBase_eq : ibufBase = 0x10000 := rfl

theorem obufBase_eq : obufBase = 0x20000 := rfl

/-- IBUF ends where OBUF begins, at the latest (R12, R50). -/
theorem wordsFor_lmax_le {p : Params} (hp : p.Legal) : wordsFor p.lmax ≤ 0x4000 := by
  have := hp.lmax_hi
  rw [wordsFor]
  omega

/-- OBUF ends with the window, at the latest (R12, R50). -/
theorem wordsFor_omax_le {p : Params} (hp : p.Legal) : wordsFor p.omax ≤ 0x10000 := by
  have : p.omax ≤ 2097152 := hp.omax_hi
  rw [wordsFor]
  omega

/-- Every word of a legal block stands at its offset: R12's bounds keep each index inside its range of the window. -/
theorem locate_offset {p : Params} (hp : p.Legal) {l : Loc} (hl : locExists p l) : locate p l.offset = some l := by
  have hi := ibufBase_eq
  have ho := obufBase_eq
  cases l with
  | polyRaw j =>
    have hj : j < p.nmax := hl
    have := hp.nmax_hi
    rw [Loc.offset, locate.eq_def, Nat.add_sub_cancel_left, Nat.mul_div_cancel_left j four_pos, if_neg (by omega),
      if_pos (by omega), if_pos hj]
  | polyMask j =>
    have hj : j < p.nmax := hl
    have := hp.nmax_hi
    rw [Loc.offset, locate.eq_def, Nat.add_sub_cancel_left, Nat.mul_div_cancel_left j four_pos, if_neg (by omega),
      if_neg (by omega), if_pos (by omega), if_pos hj]
  | ibuf w =>
    have hw : w < wordsFor p.lmax := hl
    have := wordsFor_lmax_le hp
    rw [Loc.offset, locate.eq_def, Nat.add_sub_cancel_left, Nat.mul_div_cancel_left w four_pos, if_neg (by omega),
      if_neg (by omega), if_neg (by omega), if_neg (by omega), if_pos (by omega), if_pos hw]
  | obuf w =>
    have hw : w < wordsFor p.omax := hl
    have := wordsFor_omax_le hp
    rw [Loc.offset, locate.eq_def, Nat.add_sub_cancel_left, Nat.mul_div_cancel_left w four_pos, if_neg (by omega),
      if_neg (by omega), if_neg (by omega), if_neg (by omega), if_neg (by omega), if_pos (by omega), if_pos hw]
  | cmd | status | errInfo | ilen | olen | cfgK | cfgN | encReg | parseResult => rfl

theorem target_offset {p : Params} (hp : p.Legal) {l : Loc} (hl : locExists p l) : target p 4 l.offset = .ok l := by
  simp [target, offset_mod_four, locate_offset hp hl]

/-- The HOST reads a word of the block by its offset. -/
theorem step_read_offset (hp : s.params.Legal) (hw : s.hostWaits = false) (rest : List Turn) {l : Loc} {v : Word}
    (hl : locExists s.params l) (hv : readLoc { s with agenda := rest } l = .ok v) :
    step { s with agenda := .access (.read 4 l.offset) :: rest } =
      .next { s with agenda := rest, hostReads := v :: s.hostReads } := by
  rw [step_access s]
  exact hostAccess_read_ok (target_offset hp hl) hw hv

/-- What stands at an aligned offset is a word of the block with that offset. -/
theorem locate_eq_some {p : Params} {off : Nat} {l : Loc} (h4 : off % 4 = 0) (h : locate p off = some l) :
    locExists p l ∧ l.offset = off := by
  have hi := ibufBase_eq
  have ho := obufBase_eq
  unfold locate at h
  split_ifs at h
  · split at h <;> cases h <;> exact ⟨trivial, rfl⟩
  all_goals
    cases h
    exact ⟨‹_›, by rw [Loc.offset]; omega⟩

/-! ### The STATUS word -/

/-- The STATUS word bit by bit (R32). -/
theorem statusWord_getLsbD (s : State) (i : Nat) : (statusWord s).getLsbD i =
    if i = 0 then s.busy else if i = 1 then s.cfgValid else if 4 ≤ i then s.err.getLsbD (i - 4) else false := by
  match i with
  | 0 | 1 | 2 | 3 => simp [statusWord]
  | i + 4 =>
    cases h : s.err.getLsbD i with
    | false => simp [statusWord, h]
    | true =>
      have := BitVec.lt_of_getLsbD h
      simp [statusWord, h, show i + 4 < 32 by omega]

end Sys2Proof.Machine
end

section
/-! PROOFS. What a command can do, said once: it ends with an error and changes nothing else, or it succeeds with an effect of
its own; and the error commands have before a configuration is in force. -/

namespace Sys2Proof.Machine

open Sys2Proof.Claims

/-- What a command that succeeds from `s` has done before it completes: the state written, and the checks it has passed. -/
inductive Effect (s : State) : Instr → State → Prop
  | parse {idx : BitVec 8} {m : Nat} (hidx : idx.toNat < s.params.nmax)
      (hm : polyParse (s.polyRaw.getD idx.toNat 0#32) = some m) :
      Effect s (.parse idx) { s with parseResult := BitVec.ofNat 32 m }
  | config {k n : BitVec 8} {masks : List Nat} (hk : 2 ≤ k.toNat ∧ k.toNat ≤ s.params.kmax)
      (hn : 1 ≤ n.toNat ∧ n.toNat ≤ s.params.nmax)
      (hmasks : parsePolys k.toNat 0 (s.polyRaw.take n.toNat) = .ok masks) :
      Effect s (.config k n) (s.configure k n masks)
  | encrst : Effect s .encrst { s with encReg := 0#32 }
  | encode (hcfg : s.cfgValid = true) (hlen : s.ilen.toNat ≤ s.params.lmax) :
      Effect s .encode ({ s with
        encReg := BitVec.ofNat 32 (shiftIn (regWidth s) s.encReg.toNat (inputBits s)) }.output
          (codeword (regWidth s) (tapMasks s) s.encReg.toNat (inputBits s)) (s.ilen.toNat * polyCount s))
  | decode (hcfg : s.cfgValid = true) (hlen : s.ilen.toNat ≤ s.params.lmax) (hmod : s.ilen.toNat % polyCount s = 0) :
      Effect s .decode (s.output (viterbi (regWidth s) (tapMasks s)
        (rxGroups (polyCount s) (s.ilen.toNat / polyCount s) (inputBits s))) (s.ilen.toNat / polyCount s))
  | intlv (hlen : s.ilen.toNat ≤ s.params.lmax) (hok : interleaverFaults s = false) :
      Effect s .intlv (s.output (interleave (inputBits s)) s.ilen.toNat)
  | turbo (hcfg : s.cfgValid = true) (hlen : s.ilen.toNat ≤ s.params.lmax) (hok : interleaverFaults s = false) :
      Effect s .turbo ({ s with
        treg1 := BitVec.ofNat 2 (shiftIn turboWidth 0 (inputBits s))
        treg2 := BitVec.ofNat 2 (shiftIn turboWidth 0 (interleave (inputBits s))) }.output
          (turboBits (tapMasks s) (inputBits s)) (s.ilen.toNat * (1 + 2 * polyCount s)))

/-- A command ends with an error of one of the four kinds that the block raises, or succeeds with its effect (R205, R206). -/
theorem exec_cases (i : Instr) (s : State) :
    (∃ kind info, exec i s = .next (s.raise kind info) ∧ kind ≠ .unsupportedAlgorithm) ∨
    (∃ u, exec i s = .next u.succeed ∧ Effect s i u) := by
  cases i with
  | parse idx =>
    obtain ⟨-, h⟩ | ⟨-, -, h⟩ | ⟨m, hidx, hm, h⟩ := execParse_cases idx s
    · exact .inl ⟨_, _, h, nofun⟩
    · exact .inl ⟨_, _, h, nofun⟩
    · exact .inr ⟨_, h, .parse hidx hm⟩
  | config k n =>
    obtain ⟨-, h⟩ | ⟨-, -, h⟩ | ⟨info, -, -, -, h⟩ | ⟨masks, hk, hn, hmasks, h⟩ := execConfig_cases k n s
    · exact .inl ⟨_, _, h, nofun⟩
    · exact .inl ⟨_, _, h, nofun⟩
    · exact .inl ⟨_, _, h, nofun⟩
    · exact .inr ⟨_, h, .config hk hn hmasks⟩
  | encrst => exact .inr ⟨_, rfl, .encrst⟩
  | encode =>
    obtain ⟨-, h⟩ | ⟨-, -, h⟩ | ⟨hcfg, hlen, h⟩ := execEncode_cases s
    · exact .inl ⟨_, _, h, nofun⟩
    · exact .inl ⟨_, _, h, nofun⟩
    · exact .inr ⟨_, h, .encode hcfg hlen⟩
  | decode =>
    obtain ⟨-, h⟩ | ⟨-, -, h⟩ | ⟨hcfg, hlen, hmod, h⟩ := execDecode_cases s
    · exact .inl ⟨_, _, h, nofun⟩
    · exact .inl ⟨_, _, h, nofun⟩
    · exact .inr ⟨_, h, .decode hcfg hlen hmod⟩
  | intlv =>
    obtain ⟨-, h⟩ | ⟨hlen, hok, h⟩ := execIntlv_cases s
    · exact .inl ⟨_, _, h, nofun⟩
    · exact .inr ⟨_, h, .intlv hlen hok⟩
  | turbo =>
    obtain ⟨-, h⟩ | ⟨-, -, h⟩ | ⟨hcfg, hlen, hok, h⟩ := execTurbo_cases s
    · exact .inl ⟨_, _, h, nofun⟩
    · exact .inl ⟨_, _, h, nofun⟩
    · exact .inr ⟨_, h, .turbo hcfg hlen hok⟩

/-- `exec_cases` for a command that is known to have ended in `t`. -/
theorem exec_next {i : Instr} {s t : State} (h : exec i s = .next t) :
    (∃ kind info, t = s.raise kind info ∧ kind ≠ .unsupportedAlgorithm) ∨ (∃ u, t = u.succeed ∧ Effect s i u) := by
  obtain ⟨kind, info, he, hkind⟩ | ⟨u, he, hu⟩ := exec_cases i s
  · exact .inl ⟨kind, info, Host.Outcome.next.inj (h.symm.trans he), hkind⟩
  · exact .inr ⟨u, Host.Outcome.next.inj (h.symm.trans he), hu⟩

/-- Every command completes, and then none is in progress (R33, R243). -/
theorem exec_completes (i : Instr) (s : State) : ∃ t, exec i s = .next t ∧ t.busy = false ∧ t.inFlight = none := by
  obtain ⟨kind, info, h, -⟩ | ⟨u, h, -⟩ := exec_cases i s <;> exact ⟨_, h, rfl, rfl⟩

/-- So does every word in progress, the illegal ones among them (R75), and a word that names a command runs it. -/
theorem coreTurn_completes {s : State} {w : Word} (hw : s.inFlight = some w) :
    ∃ t, coreTurn s = .next t ∧ t.busy = false ∧ t.inFlight = none ∧
      ∀ i, decode s.params w = .ok i → exec i s = .next t := by
  cases hd : decode s.params w with
  | error e => exact ⟨s.illegalCommand w, by simp only [coreTurn, hw, runCommand, hd], rfl, rfl, nofun⟩
  | ok i =>
    obtain ⟨t, ht, hbusy, hfly⟩ := exec_completes i s
    exact ⟨t, (coreTurn_of_decode hw hd).trans ht, hbusy, hfly, fun _ hi => Except.ok.inj hi ▸ ht⟩

@[simp] theorem ErrorKind.code_ne_zero (kind : ErrorKind) : kind.code ≠ 0#3 := by cases kind <;> decide

end Sys2Proof.Machine
end

section
/-! PROOFS. The invariant of the model: the state after reset meets it, every operation on the state keeps it, and so does every
command and every step. -/

namespace Sys2Proof.Machine

open Sys2Proof.Claims

/-! ### The polynomial parser's bounds (R102, R107) -/

/-- Each round adds one octal digit above the bits it has so far. -/
theorem polyParseLoop_lt {rounds v acc off m : Nat} (hacc : acc < 2 ^ off)
    (h : polyParseLoop rounds v acc off = some m) : m < 2 ^ (off + 3 * rounds) := by
  induction rounds generalizing v acc off with
  | zero =>
    unfold polyParseLoop at h
    split_ifs at h
    cases h
    exact hacc
  | succ rounds ih =>
    have hmono : 2 ^ off ≤ 2 ^ (off + 3) := Nat.pow_le_pow_right two_pos (by omega)
    unfold polyParseLoop at h
    split_ifs at h with hv hd
    · cases h
      exact hacc.trans_le (Nat.pow_le_pow_right two_pos (by omega))
    · have hdigit : (v % 10) <<< off < 2 ^ (off + 3) := by
        rw [Nat.shiftLeft_eq, Nat.pow_add, Nat.mul_comm]
        exact Nat.mul_lt_mul_of_pos_left (by omega) (by positivity)
      have := ih (Nat.or_lt_two_pow (hacc.trans_le hmono) hdigit) h
      rwa [show off + 3 * (rounds + 1) = off + 3 + 3 * rounds by omega]

theorem polyParse_lt {v : Word} {m : Nat} (h : polyParse v = some m) : m < 2 ^ 30 :=
  polyParseLoop_lt (acc := 0) (off := 0) (by decide) h

/-- The masks that CONFIG's checks let through: one for each polynomial, each of at most `k` bits. -/
theorem parsePolys_ok {k j : Nat} {vs : List Word} {masks : List Nat} (h : parsePolys k j vs = .ok masks) :
    masks.length = vs.length ∧ ∀ m ∈ masks, m < 2 ^ k := by
  induction vs generalizing j masks with
  | nil => cases h; simp
  | cons v vs ih =>
    unfold parsePolys at h
    split at h
    · cases h
    · split_ifs at h with hm
      split at h
      · cases h
      · rename_i m _ ms hms
        cases h
        obtain ⟨hlen, hfit⟩ := ih hms
        exact ⟨by simp [hlen], List.forall_mem_cons.mpr ⟨by omega, hfit⟩⟩

/-- CONFIG writes the mask of every polynomial below `n` (R108). -/
theorem configure_mask_of_lt (s : State) (k n : BitVec 8) {masks : List Nat} {j : Nat} (hj : j < masks.length) :
    (s.configure k n masks).polyMask.getD j 0#32 = BitVec.ofNat 32 masks[j] := by
  simp [List.getElem?_append_left, hj]

/-- CONFIG writes 0 for every polynomial at or above `n` (R108). -/
theorem configure_mask_of_le (s : State) (k n : BitVec 8) {masks : List Nat} {j : Nat} (hj : masks.length ≤ j) :
    (s.configure k n masks).polyMask.getD j 0#32 = 0#32 := by
  simp [List.getElem?_append_right, hj]

/-! ### Lengths of the output (R12, R38) -/

/-- OBUF holds as many bits for every input bit as TURBO writes at most. -/
theorem mul_le_omax {p : Params} {len c : Nat} (hlen : len ≤ p.lmax) (hc : c ≤ 1 + 2 * p.nmax) : len * c ≤ p.omax :=
  Nat.mul_le_mul hlen hc

theorem le_omax {p : Params} {len : Nat} (hlen : len ≤ p.lmax) : len ≤ p.omax := by
  simpa using mul_le_omax (c := 1) hlen (by omega)

theorem turboBits_length (masks : List Nat) (bits : Bits) :
    (turboBits masks bits).length = bits.length * (1 + 2 * masks.length) := by
  simp only [turboBits, List.length_append, codeword_length, interleave_length]
  ring

/-! ### The state after reset -/

theorem standard_legal : Params.standard.Legal :=
  { kmax_lo := by decide, kmax_hi := by decide, nmax_lo := by decide, nmax_hi := by decide, lmax_lo := by decide
    lmax_hi := by decide, omax_hi := by decide, mw_wide := by decide }

/-- The block after reset meets the invariant, whatever its buffers hold and whatever the HOST has read or does next. -/
theorem boot_inv {p : Params} (hp : p.Legal) (turns : List Turn) (ibufEra obufEra : Nat) (reads : List Word) :
    State.Inv { State.boot p turns with ibufEra := ibufEra, obufEra := obufEra, hostReads := reads } where
  legal := hp
  raw_len := List.length_replicate
  mask_len := List.length_replicate
  store_wf := Memory.wf_nil p
  obuf_len := rfl
  olen_fits := Nat.zero_le _
  parse_fits := (by decide : (0#32).toNat < 2 ^ 30)
  err_code := .inl rfl
  err_info := fun _ => rfl
  busy_eq := rfl
  busy_waits := nofun
  configured := nofun
  unconfigured := fun _ => ⟨rfl, rfl, rfl, rfl⟩

namespace State.Inv

variable {s : State}

theorem resetBlock (h : s.Inv) : s.resetBlock.Inv := boot_inv h.legal s.agenda _ _ s.hostReads

/-! ### The operations of the HOST -/

theorem hostSide (h : s.Inv) {waits : Bool} (hw : s.busy = true → waits = true) (reads : List Word) (turns : List Turn) :
    State.Inv { s with hostWaits := waits, hostReads := reads, agenda := turns } :=
  { h with
    busy_waits := hw
    configured := fun hc => { h.configured hc with }
    unconfigured := fun hc => { h.unconfigured hc with } }

theorem setAgenda (h : s.Inv) (turns : List Turn) : State.Inv { s with agenda := turns } :=
  h.hostSide h.busy_waits s.hostReads turns

/-- The HOST goes on waiting while BUSY is 1, since only a read of STATUS with BUSY = 0 ends its wait (R240). -/
theorem noteRead (h : s.Inv) (l : Loc) (v : Word) : (noteRead s l v).Inv :=
  h.hostSide (fun hb => by simp [h.busy_waits hb, hb]) _ s.agenda

theorem issueWrite (h : s.Inv) (w : Word) :
    State.Inv { s with busy := true, inFlight := some w, hostWaits := true } :=
  { h with
    busy_eq := rfl
    busy_waits := fun _ => rfl
    configured := fun hc => { h.configured hc with }
    unconfigured := fun hc => { h.unconfigured hc with } }

theorem setIlen (h : s.Inv) (v : Word) : State.Inv { s with ilen := v } :=
  { h with
    configured := fun hc => { h.configured hc with }
    unconfigured := fun hc => { h.unconfigured hc with } }

theorem setPolyRaw (h : s.Inv) (j : Nat) (v : Word) : State.Inv { s with polyRaw := s.polyRaw.set j v } :=
  { h with
    raw_len := List.length_set.trans h.raw_len
    configured := fun hc => { h.configured hc with }
    unconfigured := fun hc => { h.unconfigured hc with } }

theorem storeWord (h : s.Inv) (w : Nat) (v : Word) :
    State.Inv { s with ibuf := storeWord s.params s.ibuf w v } :=
  { h with
    store_wf := storeWord_wf w v h.store_wf
    configured := fun hc => { h.configured hc with }
    unconfigured := fun hc => { h.unconfigured hc with } }

theorem hostAccess {a : Access} {t : State} (h : s.Inv) (ht : hostAccess a s = .next t) : t.Inv := by
  obtain ⟨_, _, l, v, -, -, -, -, rfl⟩ | ⟨_, _, v, -, -, ⟨-, rfl⟩ | ⟨-, rfl⟩ | ⟨j, -, rfl⟩ | ⟨w, -, rfl⟩⟩ :=
    hostAccess_next ht
  · exact h.noteRead l v
  · exact h.issueWrite v
  · exact h.setIlen v
  · exact h.setPolyRaw j v
  · exact h.storeWord w v

/-! ### The completions and the effects of the commands -/

theorem completed (h : s.Inv) {code : BitVec 3} {info : Word}
    (hcode : code = 0#3 ∨ code = 1#3 ∨ code = 2#3 ∨ code = 3#3 ∨ code = 7#3) (hinfo : code = 0#3 → info = 0#32) :
    (completed s code info).Inv :=
  { h with
    err_code := hcode
    err_info := hinfo
    busy_eq := rfl
    busy_waits := nofun
    configured := fun hc => { h.configured hc with }
    unconfigured := fun hc => { h.unconfigured hc with } }

theorem succeed (h : s.Inv) : s.succeed.Inv := h.completed (.inl rfl) fun _ => rfl

theorem raise (h : s.Inv) {kind : ErrorKind} (hkind : kind ≠ .unsupportedAlgorithm) (info : Word) :
    (s.raise kind info).Inv :=
  h.completed (by cases kind <;> simp [ErrorKind.code] at hkind ⊢) fun h0 => absurd h0 kind.code_ne_zero

theorem setParseResult (h : s.Inv) {m : Nat} (hm : m < 2 ^ 30) :
    State.Inv { s with parseResult := BitVec.ofNat 32 m } :=
  { h with
    parse_fits := (Nat.mod_le m _).trans_lt hm
    configured := fun hc => { h.configured hc with }
    unconfigured := fun hc => { h.unconfigured hc with } }

theorem setTurboRegs (h : s.Inv) (r1 r2 : BitVec 2) : State.Inv { s with treg1 := r1, treg2 := r2 } :=
  { h with
    configured := fun hc => { h.configured hc with }
    unconfigured := fun hc => { h.unconfigured hc with } }

/-- A register value of `K - 1` bits, which is 0 while there is no configuration. -/
theorem setEncReg (h : s.Inv) {r : Word} (hfit : s.cfgValid = true → r.toNat < 2 ^ (s.cfgK.toNat - 1))
    (hzero : s.cfgValid = false → r = 0#32) : State.Inv { s with encReg := r } :=
  { h with
    configured := fun hc => { h.configured hc with reg_fits := hfit hc }
    unconfigured := fun hc => { h.unconfigured hc with reg_zero := hzero hc } }

theorem output (h : s.Inv) {bits : Bits} {len : Nat} (hlen : bits.length = len) (hfit : len ≤ s.params.omax) :
    (s.output bits len).Inv :=
  have hmax : s.params.omax ≤ 2097152 := h.legal.omax_hi
  have holen : (BitVec.ofNat 32 len).toNat = len := Nat.mod_eq_of_lt (by omega)
  { h with
    obuf_len := hlen.trans holen.symm
    olen_fits := holen.trans_le hfit
    configured := fun hc => { h.configured hc with }
    unconfigured := fun hc => { h.unconfigured hc with } }

/-- A configuration of masks that have passed CONFIG's checks (R106 to R108). -/
theorem configure (h : s.Inv) {k n : BitVec 8} {masks : List Nat} (hk : 2 ≤ k.toNat ∧ k.toNat ≤ s.params.kmax)
    (hn : 1 ≤ n.toNat ∧ n.toNat ≤ s.params.nmax) (hlen : masks.length = n.toNat)
    (hfit : ∀ m ∈ masks, m < 2 ^ k.toNat) : (s.configure k n masks).Inv :=
  { h with
    mask_len := by
      rw [configure_polyMask, List.length_append, List.length_map, List.length_replicate, hlen]
      exact Nat.add_sub_cancel' hn.2
    configured := fun _ =>
      { k_lo := hk.1
        k_hi := hk.2
        n_lo := hn.1
        n_hi := hn.2
        masks_fit := fun j hj => by
          have hj : j < masks.length := hlen ▸ hj
          rw [configure_mask_of_lt s k n hj]
          exact (Nat.mod_le _ _).trans_lt (hfit _ (List.getElem_mem hj))
        masks_zero := fun j _ hj => configure_mask_of_le s k n (hlen.trans_le hj)
        reg_fits := Nat.two_pow_pos _ }
    unconfigured := nofun }

/-! ### The commands and the steps -/

theorem effect (h : s.Inv) {i : Instr} {u : State} (hu : Effect s i u) : u.Inv := by
  cases hu with
  | parse _ hm => exact h.setParseResult (polyParse_lt hm)
  | config hk hn hmasks =>
    obtain ⟨hlen, hfit⟩ := parsePolys_ok hmasks
    exact h.configure hk hn (by simpa [h.raw_len, hn.2] using hlen) hfit
  | encrst => exact h.setEncReg (fun _ => Nat.two_pow_pos _) fun _ => rfl
  | encode hcfg hlen =>
    have hreg : shiftIn (regWidth s) s.encReg.toNat (inputBits s) < 2 ^ (s.cfgK.toNat - 1) :=
      shiftIn_lt (h.configured hcfg).reg_fits _
    have hn : polyCount s ≤ s.params.nmax := (h.configured hcfg).n_hi
    have hfit : s.ilen.toNat * polyCount s ≤ s.params.omax := mul_le_omax hlen (by omega)
    refine (h.setEncReg (fun _ => (Nat.mod_le _ _).trans_lt hreg) (by simp [hcfg])).output ?_ hfit
    rw [codeword_length, inputBits_length, tapMasks_length_of_inv h hcfg, polyCount]
  | decode _ hlen _ => exact h.output (by simp) (le_omax ((Nat.div_le_self _ _).trans hlen))
  | intlv hlen _ => exact h.output (by simp) (le_omax hlen)
  | turbo hcfg hlen _ =>
    have hn : polyCount s ≤ s.params.nmax := (h.configured hcfg).n_hi
    have hfit : s.ilen.toNat * (1 + 2 * polyCount s) ≤ s.params.omax := mul_le_omax hlen (by omega)
    refine (h.setTurboRegs _ _).output ?_ hfit
    rw [turboBits_length, inputBits_length, tapMasks_length_of_inv h hcfg, polyCount]

theorem exec {i : Instr} {t : State} (h : s.Inv) (ht : exec i s = .next t) : t.Inv := by
  obtain ⟨kind, info, rfl, hkind⟩ | ⟨u, rfl, hu⟩ := exec_next ht
  · exact h.raise hkind info
  · exact (h.effect hu).succeed

theorem coreTurn {t : State} (h : s.Inv) (ht : coreTurn s = .next t) : t.Inv := by
  obtain ⟨-, he⟩ | ⟨w, e, -, -, he⟩ | ⟨w, i, -, -, he⟩ := coreTurn_cases s
  · exact Host.Outcome.next.inj (he.symm.trans ht) ▸ h
  · exact Host.Outcome.next.inj (he.symm.trans ht) ▸ h.raise (kind := .illegalCommand) nofun w
  · exact h.exec (he.symm.trans ht)

theorem step {t : State} (h : s.Inv) (ht : step s = .next t) : t.Inv := by
  obtain ⟨-, he⟩ | ⟨rest, -, he⟩ | ⟨a, rest, -, he⟩ | ⟨c, rest, -, he⟩ | ⟨rest, -, rfl⟩ := step_next ht
  · exact h.coreTurn he
  · exact (h.setAgenda rest).coreTurn he
  · exact (h.setAgenda rest).hostAccess he
  · obtain ⟨turns, -, rfl⟩ := hostStatement_next he
    exact h.setAgenda (turns ++ rest)
  · exact (h.setAgenda rest).resetBlock

end State.Inv

/-- Settles O54: `boot_inv` with the default parameters. -/
theorem resetMeetsTheInvariant : Obligations.ResetMeetsTheInvariant := boot_inv standard_legal [] 0 0 []

/-- Settles O55: `State.Inv.step`. -/
theorem everyStepKeepsTheInvariant : Obligations.EveryStepKeepsTheInvariant := fun _ _ => State.Inv.step

end Sys2Proof.Machine
end

section
/-! PROOFS. CFG_VALID and ENC_REG among the commands: what keeps the one (R34), and what neither reads nor writes the other
(R41, R157, R180). -/

namespace Sys2Proof.Machine

open Sys2Proof.Claims

variable {s t : State}

/-! ### CFG_VALID -/

/-- No command clears CFG_VALID: CONFIG sets it, and no other command writes it. -/
theorem Effect.cfgValid {i : Instr} (h : Effect s i t) (hv : s.cfgValid = true) : t.cfgValid = true := by
  cases h with
  | config => rfl
  | parse | encrst | encode | decode | intlv | turbo => exact hv

theorem exec_keeps_cfgValid {i : Instr} (h : exec i s = .next t) (hv : s.cfgValid = true) : t.cfgValid = true := by
  obtain ⟨kind, info, rfl, -⟩ | ⟨u, rfl, hu⟩ := exec_next h
  · exact hv
  · exact hu.cfgValid hv

theorem coreTurn_keeps_cfgValid (h : coreTurn s = .next t) (hv : s.cfgValid = true) : t.cfgValid = true := by
  obtain ⟨-, he⟩ | ⟨w, e, -, -, he⟩ | ⟨w, i, -, -, he⟩ := coreTurn_cases s
  · exact Host.Outcome.next.inj (he.symm.trans h) ▸ hv
  · exact Host.Outcome.next.inj (he.symm.trans h) ▸ hv
  · exact exec_keeps_cfgValid (he.symm.trans h) hv

theorem hostAccess_cfgValid {a : Access} (h : hostAccess a s = .next t) : t.cfgValid = s.cfgValid := by
  obtain ⟨_, _, l, v, -, -, -, -, rfl⟩ | ⟨_, _, v, -, -, ⟨-, rfl⟩ | ⟨-, rfl⟩ | ⟨j, -, rfl⟩ | ⟨w, -, rfl⟩⟩ :=
    hostAccess_next h <;> rfl

/-- A step that is no reset keeps CFG_VALID. -/
theorem step_keeps_cfgValid (h : step s = .next t) (hv : s.cfgValid = true) :
    (∃ rest, s.agenda = .reset :: rest) ∨ t.cfgValid = true := by
  obtain ⟨-, he⟩ | ⟨rest, -, he⟩ | ⟨a, rest, -, he⟩ | ⟨c, rest, -, he⟩ | ⟨rest, hr, -⟩ := step_next h
  · exact .inr (coreTurn_keeps_cfgValid he hv)
  · exact .inr (coreTurn_keeps_cfgValid he hv)
  · exact .inr ((hostAccess_cfgValid he).trans hv)
  · obtain ⟨turns, -, rfl⟩ := hostStatement_next he
    exact .inr hv
  · exact .inl ⟨rest, hr⟩

/-- CONFIG sets CFG_VALID exactly when it succeeds. -/
theorem execConfig_cfgValid {k n : BitVec 8} (h : exec (.config k n) s = .next t) :
    (t.err = 0#3 → t.cfgValid = true) ∧ (t.err ≠ 0#3 → t.cfgValid = s.cfgValid) := by
  obtain ⟨kind, info, rfl, -⟩ | ⟨u, rfl, hu⟩ := exec_next h
  · exact ⟨fun h0 => absurd h0 kind.code_ne_zero, fun _ => rfl⟩
  · cases hu
    exact ⟨fun _ => rfl, fun h0 => absurd rfl h0⟩

/-- The commands that need a configuration end with InvalidConfiguration while there is none (R34). -/
theorem exec_unconfigured {i : Instr} (hi : i = .encode ∨ i = .decode ∨ i = .turbo) (hv : s.cfgValid = false) :
    exec i s = .next (completed s 2#3 3#32) := by
  obtain rfl | rfl | rfl := hi <;> exact if_pos hv

/-! ### ENC_REG -/

/-- What becomes of an answer when its next state is changed. -/
def mapNext (f : State → State) : Result → Result
  | .next t => .next (f t)
  | .fault r => .fault r
  | .refused r => .refused r

/-- The state with another value in ENC_REG. -/
def State.setEncReg (r : Word) (s : State) : State := { s with encReg := r }

/-- A command that is none of CONFIG, ENCRST and ENCODE takes the same way whatever ENC_REG holds. -/
theorem exec_setEncReg {i : Instr} (h1 : i ≠ .encode) (h2 : i ≠ .encrst) (h3 : ∀ k n, i ≠ .config k n) (r : Word)
    (s : State) : exec i (s.setEncReg r) = mapNext (.setEncReg r) (exec i s) := by
  cases i with
  | parse idx =>
    simp only [exec, execParse, State.setEncReg, apply_ite (mapNext _)]
    cases polyParse (s.polyRaw.getD idx.toNat 0#32) <;> rfl
  | config k n => exact absurd rfl (h3 k n)
  | encrst => exact absurd rfl h2
  | encode => exact absurd rfl h1
  | decode => simp only [exec, execDecode, apply_ite (mapNext _)]; rfl
  | intlv => simp only [exec, execIntlv, apply_ite (mapNext _)]; rfl
  | turbo => simp only [exec, execTurbo, apply_ite (mapNext _)]; rfl

end Sys2Proof.Machine
end

section
/-! PROOFS. The statements about the state, the register map and the STATUS word (R30 to R49), from the rules above. -/

namespace Sys2Proof.Machine

open Sys2Proof.Claims

/-- Settles O7: the write by `hostAccess_write_ok`, the command by `coreTurn_completes`, the refusals by the word CMD. -/
theorem cmdWriteIssuesTheCommand : Obligations.CmdWriteIssuesTheCommand := by
  unfold Obligations.CmdWriteIssuesTheCommand
  refine ⟨fun s w rest hw => ?_, fun s rest hw => ?_, fun s w rest hinv hb => ?_⟩
  · have hwrite : step { s with agenda := .access (.write 4 0x000 w) :: .core :: rest } =
        .next { s with agenda := .core :: rest, busy := true, inFlight := some w, hostWaits := true } := by
      rw [step_access s]
      exact hostAccess_write_ok (l := .cmd) rfl hw rfl
    obtain ⟨u, hu, hbusy, hfly, hexec⟩ := coreTurn_completes
      (s := { s with agenda := rest, busy := true, inFlight := some w, hostWaits := true }) (w := w) rfl
    exact ⟨_, u, hwrite, rfl, hu, hbusy, hfly, hexec⟩
  · rw [step_access s]
    exact hostAccess_read_error (l := .cmd) rfl hw rfl
  · rw [step_access s]
    exact hostAccess_write_waiting (l := .cmd) rfl (hinv.busy_waits hb)

/-- Settles O12: `statusWord_getLsbD` at each bit. -/
theorem statusWordFields : Obligations.StatusWordFields := by
  unfold Obligations.StatusWordFields
  refine ⟨fun s => ⟨?_, ?_, fun i _ => ?_, fun i hi => ?_⟩, by decide, fun s v rest hw => ?_⟩
  · rw [statusWord_getLsbD, if_pos rfl]
  · rw [statusWord_getLsbD, if_neg one_ne_zero, if_pos rfl]
  · rw [statusWord_getLsbD, if_neg (by omega), if_neg (by omega), if_pos (by omega), Nat.add_sub_cancel_left]
  · have herr : 7 ≤ i → s.err.getLsbD (i - 4) = false := fun _ => BitVec.getLsbD_of_ge _ _ (by omega)
    rw [statusWord_getLsbD, if_neg (by omega), if_neg (by omega)]
    split
    · exact herr (by omega)
    · rfl
  · rw [step_access s]
    exact hostAccess_write_error (l := .status) rfl hw rfl

/-- Settles O13: `locate_offset` and `locate_eq_some`. -/
theorem everyWordStandsAtItsOffset : Obligations.EveryWordStandsAtItsOffset := fun _ hp =>
  ⟨fun l hl => ⟨offset_mod_four l, locate_offset hp hl⟩, fun _ _ => locate_eq_some⟩

/-- Settles O14: each offset of the table is that of a word of the block, which `step_read_offset` reads. -/
theorem registerReadsReturnTheRegister : Obligations.RegisterReadsReturnTheRegister := by
  unfold Obligations.RegisterReadsReturnTheRegister
  intro s off v rest hp hw hrow
  obtain ⟨rfl, rfl⟩ | ⟨rfl, rfl⟩ | ⟨rfl, rfl⟩ | ⟨rfl, rfl⟩ | ⟨rfl, rfl⟩ | ⟨rfl, rfl⟩ | ⟨rfl, rfl⟩ | ⟨rfl, rfl⟩ |
    ⟨j, hj, rfl, rfl⟩ | ⟨j, hj, rfl, rfl⟩ := hrow
  · exact step_read_offset hp hw rest (l := .status) trivial rfl
  · exact step_read_offset hp hw rest (l := .errInfo) trivial rfl
  · exact step_read_offset hp hw rest (l := .ilen) trivial rfl
  · exact step_read_offset hp hw rest (l := .olen) trivial rfl
  · rw [BitVec.ofNat_toNat]
    exact step_read_offset hp hw rest (l := .cfgK) trivial rfl
  · rw [BitVec.ofNat_toNat]
    exact step_read_offset hp hw rest (l := .cfgN) trivial rfl
  · exact step_read_offset hp hw rest (l := .encReg) trivial rfl
  · exact step_read_offset hp hw rest (l := .parseResult) trivial rfl
  · exact step_read_offset hp hw rest (l := .polyRaw j) hj rfl
  · exact step_read_offset hp hw rest (l := .polyMask j) hj rfl

/-- Settles O29: `execConfig_cfgValid`, `step_keeps_cfgValid` and `exec_unconfigured`. -/
theorem cfgValidRisesAtConfigAndFallsAtReset : Obligations.CfgValidRisesAtConfigAndFallsAtReset :=
  ⟨rfl, fun _ _ _ _ => execConfig_cfgValid, fun _ _ => step_keeps_cfgValid, fun _ _ => exec_unconfigured⟩

/-- Settles O35: `exec_setEncReg`; with ENC_REG's own value for `r` it says that the command leaves ENC_REG. -/
theorem otherCommandsNeitherReadNorWriteEncReg : Obligations.OtherCommandsNeitherReadNorWriteEncReg := by
  unfold Obligations.OtherCommandsNeitherReadNorWriteEncReg
  intro i s t r h1 h2 h3 h
  have any (r : Word) : exec i (s.setEncReg r) = .next (t.setEncReg r) := by rw [exec_setEncReg h1 h2 h3, h]; rfl
  have same : t = t.setEncReg s.encReg := Host.Outcome.next.inj (h.symm.trans (any s.encReg))
  have kept : t.encReg = (t.setEncReg s.encReg).encReg := congrArg State.encReg same
  exact ⟨kept, any r⟩

/-- Settles O6: `coreTurn_of_decode` and `coreTurn_idle` on the CORE's turn and on an empty agenda. -/
theorem stepRunsTheDecodedCommand : Obligations.StepRunsTheDecodedCommand := by
  unfold Obligations.StepRunsTheDecodedCommand
  refine ⟨fun s w i rest hw hd => ?_, fun s w i hw hd hnil => ?_, fun s nbits w i hd => ?_, fun s rest hidle => ?_,
    fun s hidle hnil => ?_⟩
  · rw [step_core s]
    exact coreTurn_of_decode hw hd
  · rw [step_of_agenda_nil hnil, coreTurn_of_decode hw hd]
  · exact coreTurn_of_decode (s := { s with busy := true, inFlight := some _, hostWaits := true }) rfl hd
  · rw [step_core s]
    exact coreTurn_idle hidle
  · rw [step_of_agenda_nil hnil, coreTurn_idle hidle]

/-- Settles O10: every field by its value in `State.reset`. -/
theorem resetValues : Obligations.ResetValues := by
  have zero {n j : Nat} (hj : j < n) : (List.replicate n 0#32)[j]? = some 0#32 := by simp [hj]
  exact ⟨rfl, rfl, rfl, rfl, rfl, rfl, rfl, rfl, rfl, rfl, fun _ => zero, fun _ => zero, rfl, rfl, rfl, rfl, rfl⟩

end Sys2Proof.Machine
end

section
/-! PROOFS. The two buffers: what the store holds after a word is stored, the packing of bits into words (R52), and what the
commands read of IBUF and leave in OBUF (R67). -/

namespace Sys2Proof.Machine

variable {s t : State}

/-! ### IBUF: storing and reading a word -/

/-- The live bits of a byte of IBUF are those below LMAX (R52). -/
theorem liveMask_getLsbD (p : Params) (i : Nat) :
    (liveMask p (ibufBase + i / 8)).getLsbD (7 - i % 8) = decide (i < p.lmax) := by
  have ones : 0xFF#8 = BitVec.allOnes 8 := rfl
  have hbit : 7 - i % 8 < 8 := by omega
  rw [liveMask, Nat.add_sub_cancel_left, BitVec.getLsbD_not, BitVec.getLsbD_ushiftRight, ones, BitVec.getLsbD_allOnes,
    decide_eq_true hbit, Bool.true_and, ← decide_not, decide_eq_decide]
  omega

/-- A byte of a word, bit by bit: byte `i / 8` holds the bits from `8 * (i / 8)` on, most significant first (R52). -/
theorem wordByte_getLsbD (v : Word) (i : Nat) :
    (wordByte v (i / 8 % 4)).getLsbD (7 - i % 8) = v.getLsbD (31 - i % 32) := by
  have hpos : 24 - 8 * (i / 8 % 4) + (7 - i % 8) = 31 - i % 32 := by omega
  rw [wordByte, BitVec.getLsbD_extractLsb', hpos, decide_eq_true (by omega), Bool.true_and]

/-- The store after the first `n` bytes of a word are stored. -/
theorem foldl_storeByte_get? (p : Params) (m : Memory) (w : Nat) (v : Word) (b : Nat) {n : Nat} (hn : n ≤ 4) :
    ((List.range n).foldl (fun m j => storeByte p m (ibufBase + 4 * w + j) (wordByte v j)) m).get? (ibufBase + b) =
      if (b / 4 = w ∧ b % 4 < n) ∧ liveMask p (ibufBase + b) ≠ 0#8 then
        some (wordByte v (b % 4) &&& liveMask p (ibufBase + b))
      else m.get? (ibufBase + b) := by
  induction n with
  | zero => simp
  | succ n ih =>
    rw [List.range_succ, List.foldl_append, List.foldl_cons, List.foldl_nil, storeByte_get?, ih (by omega)]
    by_cases hb : b = 4 * w + n
    · obtain ⟨hdiv, hmod⟩ : b / 4 = w ∧ b % 4 = n := by omega
      have haddr : ibufBase + 4 * w + n = ibufBase + b := by omega
      simp [haddr, hdiv, hmod]
    · have haddr : ibufBase + b ≠ ibufBase + 4 * w + n := by omega
      have hlt : (b / 4 = w ∧ b % 4 < n + 1) ↔ (b / 4 = w ∧ b % 4 < n) := by omega
      simp only [haddr, hlt, false_and, if_false]

theorem storeWord_get? (p : Params) (m : Memory) (w : Nat) (v : Word) (b : Nat) :
    (storeWord p m w v).get? (ibufBase + b) =
      if b / 4 = w ∧ liveMask p (ibufBase + b) ≠ 0#8 then
        some (wordByte v (b % 4) &&& liveMask p (ibufBase + b))
      else m.get? (ibufBase + b) := by
  simp [storeWord, foldl_storeByte_get? p m w v b le_rfl, Nat.mod_lt b four_pos]

/-- A byte of IBUF with another store behind it, from what that store holds there. -/
theorem ibufByte_of_get? (s : State) {m : Memory} {a : Nat} {u : Byte} {c : Prop} [Decidable c]
    (h : m.get? a = if c ∧ liveMask s.params a ≠ 0#8 then some (u &&& liveMask s.params a) else s.ibuf.get? a) :
    ibufByte { s with ibuf := m } a = if c then u &&& liveMask s.params a else ibufByte s a := by
  simp only [ibufByte, h]
  by_cases hlive : liveMask s.params a = 0#8
  · simp [hlive]
  · by_cases hc : c
    · simp [hlive, hc, BitVec.and_assoc]
    · simp [hlive, hc]

theorem ibufByte_storeWord (s : State) (w : Nat) (v : Word) (b : Nat) :
    ibufByte { s with ibuf := storeWord s.params s.ibuf w v } (ibufBase + b) =
      if b / 4 = w then wordByte v (b % 4) &&& liveMask s.params (ibufBase + b) else ibufByte s (ibufBase + b) :=
  ibufByte_of_get? s (storeWord_get? s.params s.ibuf w v b)

/-- The bits of IBUF after the HOST has stored the word `v` as word `w` (R52). -/
theorem ibufBit_storeWord (s : State) (w : Nat) (v : Word) (i : Nat) :
    ibufBit { s with ibuf := storeWord s.params s.ibuf w v } i =
      if i / 32 = w then v.getLsbD (31 - i % 32) && decide (i < s.params.lmax) else ibufBit s i := by
  have hdiv : i / 8 / 4 = i / 32 := Nat.div_div_eq_div_mul i 8 4
  rw [ibufBit, ibufByte_storeWord, hdiv]
  split
  · rw [BitVec.getLsbD_and, wordByte_getLsbD, liveMask_getLsbD]
  · rfl

/-- Bit `31 - k` of a packed word is the sequence bit `32 * w + k` (R52). -/
theorem packWord_wordBits_getLsbD (bit : Nat → Bool) (w : Nat) {k : Nat} (hk : k < 32) :
    (packWord (wordBits bit w)).getLsbD (31 - k) = bit (32 * w + k) := by
  have hmsb := packWord_getMsbD (bs := wordBits bit w) (by simp [wordBits]) k
  rw [BitVec.getMsbD_eq_getLsbD, decide_eq_true hk, Bool.true_and] at hmsb
  rw [hmsb]
  simp [wordBits, hk]

/-! ### IBUF: what a command reads of it -/

/-- The state with another store behind IBUF, and another draw of the bits that the store does not hold. -/
def State.setIbuf (m : Memory) (era : Nat) (s : State) : State := { s with ibuf := m, ibufEra := era }

theorem inputBits_setIbuf {m : Memory} {era : Nat}
    (h : ∀ n, n < s.ilen.toNat → ibufBit (s.setIbuf m era) n = ibufBit s n) :
    inputBits (s.setIbuf m era) = inputBits s :=
  List.map_congr_left fun n hn => h n (List.mem_range.mp hn)

/-- A command takes the same way whatever IBUF holds, as long as the input sequence is the same. -/
theorem exec_setIbuf {m : Memory} {era : Nat} (h : inputBits (s.setIbuf m era) = inputBits s) (i : Instr) :
    exec i (s.setIbuf m era) = mapNext (.setIbuf m era) (exec i s) := by
  cases i with
  | parse idx =>
    simp only [exec, execParse, State.setIbuf, apply_ite (mapNext _)]
    cases polyParse (s.polyRaw.getD idx.toNat 0#32) <;> rfl
  | config k n =>
    simp only [exec, execConfig, State.setIbuf, apply_ite (mapNext _)]
    cases parsePolys k.toNat 0 (s.polyRaw.take n.toNat) <;> rfl
  | encrst => rfl
  | encode => simp only [exec, execEncode, h, apply_ite (mapNext _)]; rfl
  | decode => simp only [exec, execDecode, h, apply_ite (mapNext _)]; rfl
  | intlv => simp only [exec, execIntlv, h, apply_ite (mapNext _)]; rfl
  | turbo => simp only [exec, execTurbo, h, apply_ite (mapNext _)]; rfl

/-! ### OBUF: the result of a data command -/

/-- In a state that meets the invariant, `OBUF[0..OLEN)` is what the last data command wrote (R38, R67). -/
theorem obuf_getElem?_of_inv (h : s.Inv) {n : Nat} (hn : n < s.olen.toNat) : s.obuf[n]? = some (obufBit s n) := by
  have hget := List.getElem?_eq_getElem (hn.trans_eq h.obuf_len.symm)
  rw [obufBit_written s (hn.trans_le h.olen_fits) hget, hget]

/-- A data command that succeeds draws the bits of OBUF that it does not write anew (R67, R244). -/
theorem Effect.obufEra_of_data {i : Instr} (hi : i = .encode ∨ i = .decode ∨ i = .intlv ∨ i = .turbo)
    (h : Effect s i t) : t.obufEra = s.obufEra + 1 := by
  obtain rfl | rfl | rfl | rfl := hi <;> cases h <;> rfl

end Sys2Proof.Machine
end

section
/-! PROOFS. The HOST's reads and writes (R52 to R61): what an access by offset answers, that a read can be made again, and
which accesses are refused. -/

namespace Sys2Proof.Machine

open Sys2Proof.Claims

variable {s : State} {bytes off : Nat} {l : Loc} {v : Word}

/-! ### Reads -/

/-- A read that the protocol allows notes its value (R240). -/
theorem hostAccess_read_next (ht : target s.params bytes off = .ok l) (hw : s.hostWaits = true → l = .status)
    (hv : readLoc s l = .ok v) : hostAccess (.read bytes off) s = .next (noteRead s l v) := by
  have hallowed : ¬(s.hostWaits = true ∧ l ≠ .status) := fun h => h.2 (hw h.1)
  simp [hostAccess, ht, hallowed, hv]

/-- What a read returns does not depend on the HOST's side of the state. -/
theorem readLoc_hostSide (s : State) (waits : Bool) (reads : List Word) (turns : List Turn) (l : Loc) :
    readLoc { s with hostWaits := waits, hostReads := reads, agenda := turns } l = readLoc s l := by
  cases l <;> rfl

/-- A read can be made again at once, and returns the same value (R61). -/
theorem hostAccess_read_again {t : State} (h : hostAccess (.read bytes off) s = .next t) (turns : List Turn) :
    ∃ l v, t = noteRead s l v ∧
      hostAccess (.read bytes off) { t with agenda := turns } = .next (noteRead { t with agenda := turns } l v) := by
  obtain ⟨_, _, l, v, ⟨rfl, rfl⟩, ht, hv, hw, rfl⟩ | ⟨_, _, _, ⟨⟩, -⟩ := hostAccess_next h
  refine ⟨l, v, rfl, hostAccess_read_next ht (fun hw' => hw ?_) ((readLoc_hostSide s _ _ turns l).trans hv)⟩
  exact (Bool.and_eq_true_iff.mp hw').1

/-! ### Writes by offset -/

/-- The HOST writes a word of the block by its offset. -/
theorem step_write_offset (hp : s.params.Legal) (hw : s.hostWaits = false) (rest : List Turn)
    (hl : locExists s.params l) {t : State} (hv : writeLoc { s with agenda := rest } v l = .ok t) :
    step { s with agenda := .access (.write 4 l.offset v) :: rest } = .next t := by
  rw [step_access s]
  exact hostAccess_write_ok (target_offset hp hl) hw hv

theorem step_write_readOnly (hp : s.params.Legal) (hw : s.hostWaits = false) (rest : List Turn)
    (hl : locExists s.params l) (hv : writeLoc { s with agenda := rest } v l = .error .readOnly) :
    step { s with agenda := .access (.write 4 l.offset v) :: rest } = .refused .readOnly := by
  rw [step_access s]
  exact hostAccess_write_error (target_offset hp hl) hw hv

/-! ### Refused accesses -/

/-- Reads and writes to no word of the block are refused (R56, R57). -/
theorem step_refused_of_no_target (h : ∀ l, target s.params bytes off ≠ .ok l) (v : Word) (rest : List Turn) :
    (∃ r, step { s with agenda := .access (.read bytes off) :: rest } = .refused r) ∧
      ∃ r, step { s with agenda := .access (.write bytes off v) :: rest } = .refused r := by
  cases ht : target s.params bytes off with
  | ok l => exact absurd ht (h l)
  | error r =>
    rw [step_access s, step_access s]
    exact ⟨⟨r, by simp [hostAccess, ht]⟩, ⟨r, by simp [hostAccess, ht]⟩⟩

/-- No word of a legal block stands in a reserved range (R53, R57). -/
theorem offset_not_reserved {p : Params} (hp : p.Legal) (hl : locExists p l) :
    ¬((0x024 ≤ l.offset ∧ l.offset < 0x100) ∨ (0x100 + 4 * p.nmax ≤ l.offset ∧ l.offset < 0x200) ∨
      (0x200 + 4 * p.nmax ≤ l.offset ∧ l.offset < 0x10000) ∨
      (0x10000 + 4 * ((p.lmax + 31) / 32) ≤ l.offset ∧ l.offset < 0x20000) ∨
      0x20000 + 4 * ((p.omax + 31) / 32) ≤ l.offset) := by
  have := hp.nmax_hi
  have hi : (p.lmax + 31) / 32 ≤ 0x4000 := wordsFor_lmax_le hp
  cases l <;> simp only [Loc.offset, locExists, ibufBase, obufBase] at hl ⊢ <;> omega

end Sys2Proof.Machine
end

section
/-! PROOFS. The statements about memory (20_memory.md), from the rules of the buffers and of the HOST's accesses. -/

namespace Sys2Proof.Machine

open Sys2Proof.Claims

/-- Settles O15: a read is `step_read_offset` with the word that `packWord` packs, a write is `ibufBit_storeWord`. -/
theorem bufferWordsPackBitsMsbFirst : Obligations.BufferWordsPackBitsMsbFirst := by
  unfold Obligations.BufferWordsPackBitsMsbFirst
  intro s w rest hp hw
  refine ⟨fun hlt => ?_, fun hlt => ?_, fun v hlt => ?_, fun i => ibufBit_above s, fun i => obufBit_above s⟩
  · exact ⟨ibufWord s w, step_read_offset hp hw rest (l := .ibuf w) hlt rfl,
      fun k => packWord_wordBits_getLsbD (ibufBit s) w⟩
  · exact ⟨obufWord s w, step_read_offset hp hw rest (l := .obuf w) hlt rfl,
      fun k => packWord_wordBits_getLsbD (obufBit s) w⟩
  · have hbit := ibufBit_storeWord { s with agenda := rest } w v
    refine ⟨_, step_write_offset hp hw rest (l := .ibuf w) hlt rfl, rfl, fun k hk hlive => ?_, fun i hi => ?_⟩
    · obtain ⟨hdiv, hmod⟩ : (32 * w + k) / 32 = w ∧ (32 * w + k) % 32 = k := by omega
      rw [hbit, if_pos hdiv, hmod, decide_eq_true hlive, Bool.and_true]
    · rw [hbit, if_neg hi]
      rfl

/-- Settles O17: `hostAccess_read_again` for reads, `step_write_offset` at each writable word. -/
theorem readsHaveNoSideEffectAndWritesOnlyStore : Obligations.ReadsHaveNoSideEffectAndWritesOnlyStore := by
  unfold Obligations.ReadsHaveNoSideEffectAndWritesOnlyStore
  refine ⟨fun s t bytes off rest h => ?_, fun s v rest hp hw => ⟨?_, ?_, fun j hj => ?_, fun w hlt => ?_⟩⟩
  · rw [step_access s] at h
    obtain ⟨l, v, rfl, hagain⟩ := hostAccess_read_again h rest
    exact ⟨v, _, rfl, _, hagain⟩
  · exact step_write_offset hp hw rest (l := .cmd) trivial rfl
  · exact step_write_offset hp hw rest (l := .ilen) trivial rfl
  · exact step_write_offset hp hw rest (l := .polyRaw j) hj rfl
  · exact step_write_offset hp hw rest (l := .ibuf w) hlt rfl

/-- Settles O50: `exec_setIbuf`. -/
theorem bitsAboveIlenNeverInfluenceAResult : Obligations.BitsAboveIlenNeverInfluenceAResult := by
  unfold Obligations.BitsAboveIlenNeverInfluenceAResult
  intro i s t m era hbits h
  refine (exec_setIbuf (inputBits_setIbuf hbits) i).trans ?_
  rw [h]
  rfl

/-- Settles O51: the end state meets the invariant (O55), which ties OBUF to OLEN; an error leaves OBUF. -/
theorem outputBufferAfterADataCommand : Obligations.OutputBufferAfterADataCommand := by
  unfold Obligations.OutputBufferAfterADataCommand
  intro i s t hinv hi h
  have ht : t.Inv := hinv.exec h
  obtain ⟨kind, info, rfl, -⟩ | ⟨u, rfl, hu⟩ := exec_next h
  · exact ⟨fun h0 => absurd h0 kind.code_ne_zero, fun _ _ => rfl⟩
  · have hera : u.obufEra = s.obufEra + 1 := hu.obufEra_of_data hi
    refine ⟨fun _ => ⟨ht.obuf_len, ht.olen_fits, ?_, fun n => obuf_getElem?_of_inv ht, fun n hn => ?_⟩,
      fun h0 => absurd rfl h0⟩
    · rw [State.succeed_obufEra, hera]
      exact Nat.succ_ne_self _
    · exact List.getElem?_eq_none (ht.obuf_len.trans_le hn)

/-- Settles O16: `step_refused_of_no_target`, and the words that have no write or no read. -/
theorem unsupportedAccessesAreRefused : Obligations.UnsupportedAccessesAreRefused := by
  unfold Obligations.UnsupportedAccessesAreRefused
  intro s v off rest hp hw
  refine ⟨fun bytes hbad => ?_, fun hres => ?_, fun hro => ?_, ?_⟩
  · refine step_refused_of_no_target (fun l hl => ?_) v rest
    obtain ⟨hbytes, halign, -⟩ := target_ok hl
    omega
  · refine step_refused_of_no_target (fun l hl => ?_) v rest
    obtain ⟨-, halign, hloc⟩ := target_ok hl
    obtain ⟨hex, rfl⟩ := locate_eq_some halign hloc
    exact offset_not_reserved hp hex hres
  · obtain rfl | rfl | rfl | rfl | rfl | rfl | rfl | ⟨j, hj, rfl⟩ | ⟨w, hlt, rfl⟩ := hro
    · exact step_write_readOnly hp hw rest (l := .status) trivial rfl
    · exact step_write_readOnly hp hw rest (l := .errInfo) trivial rfl
    · exact step_write_readOnly hp hw rest (l := .olen) trivial rfl
    · exact step_write_readOnly hp hw rest (l := .cfgK) trivial rfl
    · exact step_write_readOnly hp hw rest (l := .cfgN) trivial rfl
    · exact step_write_readOnly hp hw rest (l := .encReg) trivial rfl
    · exact step_write_readOnly hp hw rest (l := .parseResult) trivial rfl
    · exact step_write_readOnly hp hw rest (l := .polyMask j) hj rfl
    · exact step_write_readOnly hp hw rest (l := .obuf w) hlt rfl
  · rw [step_access s]
    exact hostAccess_read_error (l := .cmd) rfl hw rfl

end Sys2Proof.Machine
end

section
/-! PROOFS. The command word (R70 to R77): which words are illegal, in arithmetic on the word; that decoding and encoding
undo each other; and the words the assembler gives. -/

namespace Sys2Proof

open Sys2Proof.Machine Sys2Proof.Laws.Encoding

variable {p : Params} {w : Word} {i : Instr}

/-! ### Decoding a word -/

/-- The words that name no command (R75). -/
def IllegalWord (p : Params) (w : Word) : Prop :=
  w.toNat / 2 ^ 28 = 0 ∨ 8 ≤ w.toNat / 2 ^ 28 ∨ w.toNat / 2 ^ 24 % 16 ≠ 0 ∨
    (w.toNat / 2 ^ 28 = 1 ∧
      (w.toNat / 2 ^ 16 % 256 ≠ 0 ∨ w.toNat / 2 ^ 8 % 256 ≠ 0 ∨ p.nmax ≤ w.toNat % 256)) ∨
    (w.toNat / 2 ^ 28 = 2 ∧ w.toNat % 256 ≠ 0) ∨
    (3 ≤ w.toNat / 2 ^ 28 ∧ w.toNat % 2 ^ 24 ≠ 0)

/-- What the decoder may answer to a word: an error if the word is illegal, and otherwise the well-formed command whose
word it is. -/
def AnswerFits (p : Params) (w : Word) : Except DecodeError Instr → Prop
  | .error _ => IllegalWord p w
  | .ok i => ¬IllegalWord p w ∧ encode i = w ∧ i.wellFormed p = true

/-- Where the word of every command has bits (R71, R77). -/
theorem encode_toNat (i : Instr) : Statement i := by
  cases i with
  | parse idx => exact Laws.Encoding.parse idx
  | config k n => exact Laws.Encoding.config k n
  | encrst | encode | decode | intlv | turbo => rfl

theorem encode_eq_iff : encode i = w ↔
    w.toNat = opOf i * 2 ^ 28 + (operandsOf i).1 * 2 ^ 16 + (operandsOf i).2.1 * 2 ^ 8 + (operandsOf i).2.2 := by
  rw [← BitVec.toNat_inj, encode_toNat i, eq_comm]

/-- A command of format Z has its OP as its word, and needs every other bit to be 0 (R74). -/
theorem decodeZ_answerFits (hrsv : w.toNat / 2 ^ 24 % 16 = 0) (hop : w.toNat / 2 ^ 28 = opOf i)
    (hrow : 3 ≤ opOf i ∧ opOf i < 8) (hz : operandsOf i = (0, 0, 0)) (hwf : i.wellFormed p = true) :
    AnswerFits p w (decodeZ w i) := by
  rw [decodeZ]
  split_ifs with hne
  all_goals
    rw [field_ne_zero_iff, unusedByZ_toNat] at hne
    simp only [AnswerFits, encode_eq_iff, IllegalWord, hz]
  · omega
  · exact ⟨by omega, by omega, hwf⟩

theorem decode_answerFits (p : Params) (w : Word) : AnswerFits p w (decode p w) := by
  have hop := opField_toNat w
  have hk := kField_toNat w
  have hn := nField_toNat w
  have hidx := idxField_toNat w
  rw [decode]
  by_cases hrsv : w.toNat / 2 ^ 24 % 16 = 0
  case neg =>
    rw [if_pos ((field_ne_zero_iff _).mpr (by rwa [rsvField_toNat]))]
    exact .inr (.inr (.inl hrsv))
  rw [if_neg fun h => (field_ne_zero_iff _).mp h (by rwa [rsvField_toNat])]
  split
  case h_1 h1 =>
    split_ifs with hne hle
    all_goals
      rw [field_ne_zero_iff, unusedByParse_toNat] at hne
      simp only [AnswerFits, encode_eq_iff, IllegalWord, opOf, operandsOf]
    · omega
    · omega
    · exact ⟨by omega, by omega, decide_eq_true (Nat.lt_of_not_le hle)⟩
  case h_2 h2 =>
    split_ifs with hne
    all_goals
      rw [field_ne_zero_iff] at hne
      simp only [AnswerFits, encode_eq_iff, IllegalWord, opOf, operandsOf]
    · omega
    · exact ⟨by omega, by omega, rfl⟩
  case h_3 h3 => exact decodeZ_answerFits hrsv (hop.symm.trans h3) (by decide) rfl rfl
  case h_4 h4 => exact decodeZ_answerFits hrsv (hop.symm.trans h4) (by decide) rfl rfl
  case h_5 h5 => exact decodeZ_answerFits hrsv (hop.symm.trans h5) (by decide) rfl rfl
  case h_6 h6 => exact decodeZ_answerFits hrsv (hop.symm.trans h6) (by decide) rfl rfl
  case h_7 h7 => exact decodeZ_answerFits hrsv (hop.symm.trans h7) (by decide) rfl rfl
  case h_8 h1 h2 h3 h4 h5 h6 h7 =>
    simp only [imp_false] at h1 h2 h3 h4 h5 h6 h7
    unfold AnswerFits IllegalWord
    omega

/-! ### Encoding a command -/

/-- The word of a well-formed command decodes to it: each field of the word is its operand or 0 (R71, R72). -/
theorem decode_encode (hwf : i.wellFormed p = true) : decode p (encode i) = .ok i := by
  cases i with
  | parse idx =>
    have hw := Laws.Encoding.parse idx
    have hlt := idx.isLt
    simp only [Statement, opOf, operandsOf] at hw
    have hop : (opField (encode (.parse idx))).toNat = 1 := by rw [opField_toNat, hw]; omega
    have hrsv : rsvField (encode (.parse idx)) = 0#4 := by
      rw [← BitVec.toNat_inj, rsvField_toNat, hw, BitVec.toNat_zero]; omega
    have hunused : (encode (.parse idx)).extractLsb' 8 16 = 0#16 := by
      rw [← BitVec.toNat_inj, unusedByParse_toNat, hw, BitVec.toNat_zero]; omega
    have hidx : idxField (encode (.parse idx)) = idx := by rw [← BitVec.toNat_inj, idxField_toNat, hw]; omega
    simp [decode, hrsv, hop, hunused, hidx, of_decide_eq_true hwf]
  | config k n =>
    have hw := Laws.Encoding.config k n
    have hklt := k.isLt
    have hnlt := n.isLt
    simp only [Statement, opOf, operandsOf] at hw
    have hop : (opField (encode (.config k n))).toNat = 2 := by rw [opField_toNat, hw]; omega
    have hrsv : rsvField (encode (.config k n)) = 0#4 := by
      rw [← BitVec.toNat_inj, rsvField_toNat, hw, BitVec.toNat_zero]; omega
    have hidx : idxField (encode (.config k n)) = 0#8 := by
      rw [← BitVec.toNat_inj, idxField_toNat, hw, BitVec.toNat_zero]; omega
    have hk : kField (encode (.config k n)) = k := by rw [← BitVec.toNat_inj, kField_toNat, hw]; omega
    have hn : nField (encode (.config k n)) = n := by rw [← BitVec.toNat_inj, nField_toNat, hw]; omega
    simp [decode, hrsv, hop, hidx, hk, hn]
  | encrst | encode | decode | intlv | turbo => rfl

/-! ### The assembler -/

/-- A command that the assembler accepts is well formed, and gets its word (R77). -/
theorem assemble_eq_some {c : AsmCommand} (h : assemble p c = some w) :
    ∃ i, i.wellFormed p = true ∧ encode i = w := by
  cases c with
  | parse idx =>
    simp only [assemble, Option.ite_none_right_eq_some, Option.some.injEq] at h
    obtain ⟨⟨hidx, hbyte⟩, rfl⟩ := h
    have hval : (BitVec.ofNat 8 idx).toNat = idx := Nat.mod_eq_of_lt (by omega)
    exact ⟨.parse (BitVec.ofNat 8 idx), decide_eq_true (hval.trans_lt hidx), rfl⟩
  | config k n =>
    simp only [assemble, Option.ite_none_right_eq_some, Option.some.injEq] at h
    exact ⟨_, rfl, h.2⟩
  | encrst | encode | decode | intlv | turbo => cases h; exact ⟨_, rfl, rfl⟩

/-- An operand of at most 255 is the same number in its field and in a word. -/
theorem setWidth_byte {x : Nat} (hx : x ≤ 255) : (BitVec.ofNat 8 x).setWidth 32 = BitVec.ofNat 32 x := by
  rw [← BitVec.toNat_inj, BitVec.toNat_setWidth, BitVec.toNat_ofNat, BitVec.toNat_ofNat]
  omega

end Sys2Proof
end

section
/-! PROOFS. Runs of the agenda: what a list of turns performs from a state, whatever stands behind it, put together from
what the single turns perform (R10, R77 to R80). -/

namespace Sys2Proof.Machine

open Sys2Proof.Claims

variable {s t u : State}

/-! ### Putting turns together -/

/-- In `k` steps the turns take the block from `s` to `t`, whatever stands behind them on the agenda. -/
def Performs (k : Nat) (turns : List Turn) (s t : State) : Prop :=
  ∀ rest, Host.Core.run core k { s with agenda := turns ++ rest } = .next { t with agenda := rest }

theorem run_succ (k : Nat) (h : step s = .next t) : Host.Core.run core (k + 1) s = Host.Core.run core k t := by
  have hcore : core.step s = .next t := h
  simp only [Host.Core.run, hcore]

theorem run_add {j : Nat} (k : Nat) (h : Host.Core.run core j s = .next t) :
    Host.Core.run core (j + k) s = Host.Core.run core k t := by
  induction j generalizing s with
  | zero => cases h; rw [Nat.zero_add]
  | succ j ih =>
    rw [Nat.succ_add]
    simp only [Host.Core.run] at h ⊢
    split at h
    · exact ih h
    · cases h
    · cases h

/-- What a statement stands for does not depend on the agenda. -/
theorem expand_setAgenda (s : State) (turns : List Turn) (c : Stmt) :
    c.expand { s with agenda := turns } = c.expand s := by
  cases c <;> rfl

namespace Performs

variable {j k : Nat} {turn : Turn} {turns more : List Turn}

theorem refl (s : State) : Performs 0 [] s s := fun _ => rfl

theorem append (h : Performs j turns s t) (h' : Performs k more t u) : Performs (j + k) (turns ++ more) s u := by
  intro rest
  rw [List.append_assoc, run_add k (h _), h']

theorem cons (h : Performs 1 [turn] s t) (h' : Performs k turns t u) : Performs (k + 1) (turn :: turns) s u := by
  rw [Nat.add_comm]
  exact h.append h'

theorem of_step (h : ∀ rest, step { s with agenda := turn :: rest } = .next { t with agenda := rest }) :
    Performs 1 [turn] s t :=
  fun rest => run_succ 0 (h rest)

/-- A statement takes one step to expand into its turns. -/
theorem stmt {c : Stmt} (hc : c.expand s = .ok turns) (h : Performs k turns s t) : Performs (k + 1) [.stmt c] s t := by
  intro rest
  have hstep : step { s with agenda := [.stmt c] ++ rest } = .next { s with agenda := turns ++ rest } := by
    have hexp : c.expand { s with agenda := rest } = .ok turns := (expand_setAgenda s rest c).trans hc
    show hostStatement c { s with agenda := rest } = _
    simp only [hostStatement, hexp]
  rw [run_succ k hstep, h]

/-- Blocks of turns in a row, each of which takes the block from one of a sequence of states to the next. -/
theorem range {c n : Nat} {block : Nat → List Turn} {state : Nat → State}
    (h : ∀ w, w < n → Performs c (block w) (state w) (state (w + 1))) :
    Performs (n * c) ((List.range n).flatMap block) (state 0) (state n) := by
  induction n with
  | zero => rw [Nat.zero_mul]; exact refl _
  | succ n ih =>
    rw [Nat.succ_mul, List.range_succ, List.flatMap_append, List.flatMap_singleton]
    exact (ih fun w hw => h w (by omega)).append (h n (by omega))

end Performs

/-! ### Single turns -/

theorem performs_read {l : Loc} {v : Word} (ht : target s.params 4 l.offset = .ok l)
    (hw : s.hostWaits = true → l = .status) (hv : readLoc s l = .ok v) :
    Performs 1 [rdTurn (.loc l)] s (noteRead s l v) :=
  .of_step fun rest => by
    have hv' : readLoc { s with agenda := rest } l = .ok v := (readLoc_hostSide s s.hostWaits s.hostReads rest l).trans hv
    exact (step_access s _ rest).trans (hostAccess_read_next ht hw hv')

theorem performs_read_of_free {l : Loc} {v : Word} (ht : target s.params 4 l.offset = .ok l) (hw : s.hostWaits = false)
    (hv : readLoc s l = .ok v) : Performs 1 [rdTurn (.loc l)] s { s with hostReads := v :: s.hostReads } := by
  rw [← noteRead_of_free hw l v]
  exact performs_read ht (fun hwaits => absurd (hw.symm.trans hwaits) nofun) hv

theorem writeLoc_setAgenda {l : Loc} {v : Word} (h : writeLoc s v l = .ok t) (turns : List Turn) :
    writeLoc { s with agenda := turns } v l = .ok { t with agenda := turns } := by
  cases l <;> cases h <;> rfl

theorem performs_write {l : Loc} {v : Word} (ht : target s.params 4 l.offset = .ok l) (hw : s.hostWaits = false)
    (hv : writeLoc s v l = .ok t) : Performs 1 [wrTurn (.loc l) v] s t :=
  .of_step fun rest => (step_access s _ rest).trans (hostAccess_write_ok ht hw (writeLoc_setAgenda hv rest))

/-- A command takes the same way whatever turns are still to come. -/
theorem exec_setAgenda (turns : List Turn) (i : Instr) (s : State) :
    exec i { s with agenda := turns } = mapNext (fun t => { t with agenda := turns }) (exec i s) := by
  cases i with
  | parse idx =>
    simp only [exec, execParse, apply_ite (mapNext _)]
    cases polyParse (s.polyRaw.getD idx.toNat 0#32) <;> rfl
  | config k n =>
    simp only [exec, execConfig, apply_ite (mapNext _)]
    cases parsePolys k.toNat 0 (s.polyRaw.take n.toNat) <;> rfl
  | encrst => rfl
  | encode | decode | intlv | turbo =>
    simp only [exec, execEncode, execDecode, execIntlv, execTurbo, apply_ite (mapNext _)]
    rfl

theorem coreTurn_setAgenda (turns : List Turn) (h : coreTurn s = .next t) :
    coreTurn { s with agenda := turns } = .next { t with agenda := turns } := by
  obtain ⟨hw, hs⟩ | ⟨w, e, hw, hd, hs⟩ | ⟨w, i, hw, hd, hs⟩ := coreTurn_cases s
  · cases hs.symm.trans h
    exact coreTurn_idle hw
  · cases hs.symm.trans h
    simp only [coreTurn, hw, runCommand, hd]
    rfl
  · rw [coreTurn_of_decode (s := { s with agenda := turns }) hw hd, exec_setAgenda, ← hs, h]
    rfl

theorem performs_core (h : coreTurn s = .next t) : Performs 1 [.core] s t :=
  .of_step fun rest => coreTurn_setAgenda (s := s) rest h

/-! ### Commands and WAIT -/

/-- WAIT on an idle block is one poll (R78). -/
theorem performs_wait_idle (hb : s.busy = false) :
    Performs 2 [.stmt .wait] s { s with hostWaits := false, hostReads := statusWord s :: s.hostReads } := by
  have hnote : noteRead s .status (statusWord s) =
      { s with hostWaits := false, hostReads := statusWord s :: s.hostReads } := by simp [noteRead, hb]
  have hexp : Stmt.expand s .wait = .ok [rdTurn (.loc .status)] := by simp [Stmt.expand, waitTurns, hb]
  exact .stmt hexp (hnote ▸ performs_read rfl (fun _ => rfl) rfl)

/-- WAIT while a command is in progress: a poll with BUSY = 1, the command, and a poll with BUSY = 0 (R78, R240, R243). -/
theorem performs_wait_busy (hb : s.busy = true) (h : coreTurn (noteRead s .status (statusWord s)) = .next t)
    (ht : t.busy = false) :
    Performs 5 [.stmt .wait] s { t with hostWaits := false, hostReads := statusWord t :: t.hostReads } := by
  have hexp : Stmt.expand s .wait = .ok [rdTurn (.loc .status), .core, .stmt .wait] := by
    simp [Stmt.expand, waitTurns, hb]
  exact .stmt hexp (.cons (performs_read rfl (fun _ => rfl) rfl) (.cons (performs_core h) (performs_wait_idle ht)))

/-- A command statement: its expansion, the write of CMD, and WAIT (R79). -/
theorem performs_command {c : AsmCommand} {w : Word} (hc : assemble s.params c = some w) (hw : s.hostWaits = false)
    (h : Performs 5 [.stmt .wait] { s with busy := true, inFlight := some w, hostWaits := true } t) :
    Performs 7 [.stmt (.command c)] s t := by
  have hexp : Stmt.expand s (.command c) = .ok [wrTurn (.loc .cmd) w, .stmt .wait] := by simp only [Stmt.expand, hc]
  exact .stmt hexp (.cons (performs_write rfl hw rfl) h)

end Sys2Proof.Machine
end

section
/-! PROOFS. Loading IBUF word by word: the store after a bit sequence is written, and the input sequence that is then read
(R37, R52, R80). -/

namespace Sys2Proof.Machine

open Sys2Proof.Claims

variable {s : State}

/-- The store after the first `n` words of a bit sequence are stored in IBUF. -/
def storeBits (p : Params) (bit : Nat → Bool) (m : Memory) : Nat → Memory
  | 0 => m
  | n + 1 => storeWord p (storeBits p bit m n) n (packWord (wordBits bit n))

theorem ibufBit_storeBits (s : State) (bit : Nat → Bool) (n i : Nat) :
    ibufBit { s with ibuf := storeBits s.params bit s.ibuf n } i =
      if i < 32 * n then bit i && decide (i < s.params.lmax) else ibufBit s i := by
  induction n with
  | zero => rfl
  | succ n ih =>
    refine (ibufBit_storeWord { s with ibuf := storeBits s.params bit s.ibuf n } n _ i).trans ?_
    rw [ih, packWord_wordBits_getLsbD bit n (Nat.mod_lt i (by decide))]
    by_cases hi : i / 32 = n
    · rw [if_pos hi, if_pos (by omega), ← hi, Nat.div_add_mod]
    · rw [if_neg hi]
      exact if_congr (by omega) rfl rfl

/-- Once all words of a sequence of ILEN bits are stored, the input sequence is that sequence. -/
theorem inputBits_storeBits (bit : Nat → Bool) (hlen : s.ilen.toNat ≤ s.params.lmax) :
    inputBits { s with ibuf := storeBits s.params bit s.ibuf (wordsFor s.ilen.toNat) } =
      (List.range s.ilen.toNat).map bit := by
  refine List.map_congr_left fun i hi => ?_
  have hlt : i < s.ilen.toNat := List.mem_range.mp hi
  have hword : i < 32 * wordsFor s.ilen.toNat := by rw [wordsFor]; omega
  rw [ibufBit_storeBits, if_pos hword, decide_eq_true (hlt.trans_le hlen), Bool.and_true]

theorem map_range_getD (bs : Bits) : (List.range bs.length).map (fun i => bs.getD i false) = bs :=
  List.ext_getElem (by simp) fun i _ hi => by simp [hi]

theorem map_range_obufBit (h : s.Inv) : (List.range s.olen.toNat).map (obufBit s) = s.obuf := by
  refine List.ext_getElem (by simp [h.obuf_len]) fun i hi _ => ?_
  have hlt : i < s.olen.toNat := by simpa using hi
  rw [List.getElem_map, List.getElem_range]
  exact (List.getElem_eq_iff _).mpr (obuf_getElem?_of_inv h hlt) |>.symm

theorem lt_wordsFor_of_le {w len cap : Nat} (hw : w < wordsFor len) (hle : len ≤ cap) : w < wordsFor cap := by
  rw [wordsFor] at *
  omega

/-- LOADBITS: one write a word, and the write of ILEN (R80). -/
theorem performs_loadbits {bs : Bits} (hp : s.params.Legal) (hw : s.hostWaits = false)
    (hlen : bs.length ≤ s.params.lmax) :
    Performs (wordsFor bs.length + 2) [.stmt (.loadbits bs)] s
      { s with
        ibuf := storeBits s.params (fun i => bs.getD i false) s.ibuf (wordsFor bs.length)
        ilen := BitVec.ofNat 32 bs.length } := by
  have hwords : Performs (wordsFor bs.length)
      ((List.range (wordsFor bs.length)).map (fun w => wrTurn (.loc (.ibuf w)) (loadWord bs w))) s
      { s with ibuf := storeBits s.params (fun i => bs.getD i false) s.ibuf (wordsFor bs.length) } := by
    have hrange := Performs.range (c := 1) (n := wordsFor bs.length)
      (block := fun w => [wrTurn (.loc (.ibuf w)) (loadWord bs w)])
      (state := fun n => { s with ibuf := storeBits s.params (fun i => bs.getD i false) s.ibuf n })
      fun w hlt => performs_write (target_offset hp (l := .ibuf w) (lt_wordsFor_of_le hlt hlen)) hw rfl
    rwa [Nat.mul_one, ← List.map_eq_flatMap] at hrange
  have hexp : Stmt.expand s (.loadbits bs) = .ok (loadbitsTurns bs) := if_pos hlen
  exact .stmt hexp (hwords.append (performs_write rfl hw rfl))

/-- The values the HOST has read when COPYOUT has copied `n` words: OLEN, and each OBUF word. -/
def copiedReads (s : State) : Nat → List Word
  | 0 => s.olen :: s.hostReads
  | n + 1 => obufWord s n :: copiedReads s n

/-- The state when COPYOUT has copied `n` words. -/
def copiedWords (s : State) (n : Nat) : State :=
  { s with ibuf := storeBits s.params (obufBit s) s.ibuf n, hostReads := copiedReads s n }

/-- One word of COPYOUT: the read of the OBUF word, and the write of the IBUF word of the same number (R80). -/
theorem performs_copyWord {w : Nat} (hp : s.params.Legal) (hw : s.hostWaits = false)
    (hobuf : w < wordsFor s.params.omax) (hibuf : w < wordsFor s.params.lmax) :
    Performs 2 [rdTurn (.loc (.obuf w)), wrTurn (.loc (.ibuf w)) (obufWord s w)] (copiedWords s w)
      (copiedWords s (w + 1)) := by
  have hread : Performs 1 [rdTurn (.loc (.obuf w))] (copiedWords s w)
      { copiedWords s w with hostReads := copiedReads s (w + 1) } :=
    performs_read_of_free (target_offset hp (l := .obuf w) hobuf) hw rfl
  exact hread.cons (performs_write (target_offset hp (l := .ibuf w) hibuf) hw rfl)

/-- COPYOUT: the read of OLEN, a read and a write for each word of the result, and the write of ILEN (R80). -/
theorem performs_copyout (hp : s.params.Legal) (hw : s.hostWaits = false) (hlmax : s.olen.toNat ≤ s.params.lmax)
    (homax : s.olen.toNat ≤ s.params.omax) :
    Performs (2 * wordsFor s.olen.toNat + 3) [.stmt .copyout] s
      { copiedWords s (wordsFor s.olen.toNat) with ilen := s.olen } := by
  have holen : Performs 1 [rdTurn (.loc .olen)] s (copiedWords s 0) :=
    performs_read_of_free rfl hw rfl
  have hwords := Performs.range (state := copiedWords s) fun w hlt =>
    performs_copyWord hp hw (lt_wordsFor_of_le hlt homax) (lt_wordsFor_of_le hlt hlmax)
  have hexp : Stmt.expand s .copyout = .ok (copyoutTurns s) := if_pos hlmax
  rw [Nat.mul_comm]
  exact .stmt hexp ((holen.cons hwords).append (performs_write (l := .ilen) rfl hw rfl))

end Sys2Proof.Machine
end

section
/-! PROOFS. The statements about encoding (30_encoding.md), from the rules of the command word and
of the runs. -/

namespace Sys2Proof

open Sys2Proof.Machine

/-- Settles O2: `decode_encode`. -/
theorem decodeOfEncodeIsTheCommand : Obligations.DecodeOfEncodeIsTheCommand := fun _ _ => decode_encode

/-- Settles O3: `decode_answerFits` for the answer that the word decodes to. -/
theorem decodedWordIsTheCommandsWord : Obligations.DecodedWordIsTheCommandsWord := by
  unfold Obligations.DecodedWordIsTheCommandsWord
  intro p w i h
  have hfits := decode_answerFits p w
  rw [h] at hfits
  obtain ⟨-, hword, hwf⟩ := hfits
  exact ⟨hword, hwf⟩

/-- Settles O4: `decode_answerFits` says which words are illegal, and the CORE's turn completes one. -/
theorem illegalWordsAndTheirCompletion : Obligations.IllegalWordsAndTheirCompletion := by
  unfold Obligations.IllegalWordsAndTheirCompletion
  refine ⟨fun p w => ?_, fun s w e rest hw hd => ?_⟩
  · have hfits := decode_answerFits p w
    cases hd : decode p w with
    | error e => exact ⟨fun _ => by rwa [hd] at hfits, fun _ => ⟨e, rfl⟩⟩
    | ok i =>
      rw [hd] at hfits
      exact ⟨nofun, fun hill => absurd hill hfits.1⟩
  · rw [step_core s]
    simp only [coreTurn, hw, runCommand, hd]
    rfl

/-- Settles O1: each word is the word of a well-formed command. -/
theorem listedWordsDecode : Obligations.ListedWordsDecode :=
  ⟨decode_encode (i := .parse 5#8) rfl, decode_encode (i := .config 3#8 2#8) rfl, decode_encode (i := .encrst) rfl,
    decode_encode (i := .encode) rfl, decode_encode (i := .decode) rfl, decode_encode (i := .intlv) rfl,
    decode_encode (i := .turbo) rfl⟩

/-- Settles O5: an operand that the assembler accepts fits its field, and the word decodes by `decode_encode`. -/
theorem assemblerGivesTheListedWords : Obligations.AssemblerGivesTheListedWords := by
  unfold Obligations.AssemblerGivesTheListedWords
  intro p hp
  refine ⟨fun idx => ?_, fun k n => ?_, rfl, rfl, rfl, rfl, rfl, fun c w h => ?_⟩
  · have hn := hp.nmax_hi
    have hbyte : idx < p.nmax ∧ idx ≤ 255 ↔ idx < p.nmax := and_iff_left_of_imp fun _ => by omega
    simp only [assemble, hbyte]
    split
    · rw [encode, setWidth_byte (by omega)]
    · rfl
  · rw [assemble]
    split
    next h => rw [encode, setWidth_byte h.1, setWidth_byte h.2]
    next => rfl
  · obtain ⟨i, hwf, rfl⟩ := assemble_eq_some h
    exact ⟨i, decode_encode hwf⟩

/-- Settles O9: `performs_command`, with WAIT as `performs_wait_busy` has it. -/
theorem commandStatementRunsToCompletion : Obligations.CommandStatementRunsToCompletion := by
  unfold Obligations.CommandStatementRunsToCompletion
  intro s c w rest _ hw hc
  obtain ⟨t, ht, hbusy, -, -⟩ := coreTurn_completes (w := w)
    (s := { s with
      busy := true, inFlight := some w, hostWaits := true,
      hostReads := statusWord { s with busy := true } :: s.hostReads }) rfl
  refine ⟨{ t with agenda := .stmt .wait :: rest }, coreTurn_setAgenda _ ht, hbusy, ?_⟩
  exact performs_command hc hw (performs_wait_busy rfl ht hbusy) rest

/-- Settles O52: `performs_loadbits`, and `inputBits_storeBits` for the input sequence. -/
theorem loadbitsGivesTheInputSequence : Obligations.LoadbitsGivesTheInputSequence := by
  unfold Obligations.LoadbitsGivesTheInputSequence
  intro s bs rest hp hw hlen
  have hilen : (BitVec.ofNat 32 bs.length).toNat = bs.length :=
    Nat.mod_eq_of_lt (by have := hp.lmax_hi; omega)
  refine ⟨_, performs_loadbits hp hw hlen rest, rfl, hilen, ?_⟩
  have hinput := inputBits_storeBits (s := { s with ilen := BitVec.ofNat 32 bs.length, agenda := rest })
    (fun i => bs.getD i false) (hilen.trans_le hlen)
  simp only [hilen, map_range_getD] at hinput
  exact hinput

/-- Settles O53: `performs_copyout`, and `inputBits_storeBits` for the input sequence. -/
theorem copyoutMakesTheResultTheInput : Obligations.CopyoutMakesTheResultTheInput := by
  unfold Obligations.CopyoutMakesTheResultTheInput
  intro s rest hinv hw hlmax
  refine ⟨_, performs_copyout hinv.legal hw hlmax hinv.olen_fits rest, rfl, ?_⟩
  have hinput := inputBits_storeBits (obufBit s)
    (s := { s with ilen := s.olen, hostReads := copiedReads s (wordsFor s.olen.toNat), agenda := rest }) hlmax
  exact hinput.trans (map_range_obufBit hinv)

end Sys2Proof
end

section
/-! PROOFS. The polynomial parser as arithmetic on decimal digits (R100 to R102, R111), and PARSE (R104) from it. -/

namespace Sys2Proof.Machine

open Sys2Proof.Claims

/-! ### Decimal digits read as octal (R101) -/

/-- Every decimal digit of the number is an octal digit. -/
abbrev OctalDigits (v : Nat) : Prop := ∀ d ∈ Nat.digits 10 v, d ≤ 7

/-- The decimal digit string of the number, read as an octal number. -/
def octalValue (v : Nat) : Nat := Nat.ofDigits 8 (Nat.digits 10 v)

theorem not_octalDigits_iff {v : Nat} : ¬ OctalDigits v ↔ ∃ d ∈ Nat.digits 10 v, 7 < d := by simp [OctalDigits]

theorem octalDigits_zero : OctalDigits 0 := by simp [OctalDigits]

@[simp] theorem octalValue_zero : octalValue 0 = 0 := by simp [octalValue]

theorem octalDigits_iff {v : Nat} (hv : v ≠ 0) : OctalDigits v ↔ v % 10 ≤ 7 ∧ OctalDigits (v / 10) := by
  simp only [OctalDigits, Nat.digits_def' (b := 10) (by decide) (Nat.pos_of_ne_zero hv), List.forall_mem_cons]

theorem octalValue_eq (v : Nat) : octalValue v = v % 10 + 8 * octalValue (v / 10) := by
  obtain rfl | hv := eq_or_ne v 0
  · simp
  · simp only [octalValue, Nat.digits_def' (b := 10) (by decide) (Nat.pos_of_ne_zero hv), Nat.ofDigits_cons]

/-- A number with octal digits only has a smaller octal value than every number above it: the first digit from the left in
which they differ decides, and the digits right of it weigh less than one unit of it. -/
theorem octalValue_lt {v u : Nat} (hd : OctalDigits v) (hlt : v < u) : octalValue v < octalValue u := by
  induction u using Nat.strong_induction_on generalizing v with
  | _ u ih =>
    rw [octalValue_eq v, octalValue_eq u]
    obtain hq | hq := Nat.lt_or_eq_of_le (Nat.div_le_div_right hlt.le : v / 10 ≤ u / 10)
    · have ⟨hdigit, hrest⟩ : v % 10 ≤ 7 ∧ OctalDigits (v / 10) := by
        obtain rfl | hv := eq_or_ne v 0
        · exact ⟨by decide, octalDigits_zero⟩
        · exact (octalDigits_iff hv).mp hd
      have := ih (u / 10) (by omega) hrest hq
      omega
    · rw [hq]
      omega

/-! ### The parser -/

/-- With enough rounds left the loop puts the octal value of what is left above the bits it has so far, or fails. -/
theorem polyParseLoop_eq {rounds v acc off : Nat} (hv : v < 10 ^ rounds) (hacc : acc < 2 ^ off) :
    polyParseLoop rounds v acc off = if OctalDigits v then some (acc + octalValue v * 2 ^ off) else none := by
  induction rounds generalizing v acc off with
  | zero =>
    obtain rfl : v = 0 := by simpa using hv
    simp [polyParseLoop]
  | succ rounds ih =>
    obtain rfl | hv0 := eq_or_ne v 0
    · simp [polyParseLoop]
    · by_cases hd : v % 10 ≤ 7
      · have hor : acc ||| (v % 10) <<< off = acc + v % 10 * 2 ^ off := by
          rw [Nat.or_comm, ← Nat.shiftLeft_add_eq_or_of_lt hacc, Nat.shiftLeft_eq, Nat.add_comm]
        have hacc' : acc + v % 10 * 2 ^ off < 2 ^ (off + 3) := by
          have := Nat.mul_le_mul_right (2 ^ off) hd
          rw [pow_add]
          omega
        have hval : acc + v % 10 * 2 ^ off + octalValue (v / 10) * 2 ^ (off + 3) = acc + octalValue v * 2 ^ off := by
          rw [octalValue_eq v]
          ring
        rw [polyParseLoop, if_neg hv0, if_neg (by omega), hor, ih (by omega) hacc', hval]
        simp only [octalDigits_iff hv0, hd, true_and]
      · rw [polyParseLoop, if_neg hv0, if_pos (by omega), if_neg fun h => hd ((octalDigits_iff hv0).mp h).1]

/-- The parser: the octal value of the decimal digits, or a failure when one of them is no octal digit (R101). -/
theorem polyParse_eq (v : Word) :
    polyParse v = if OctalDigits v.toNat then some (octalValue v.toNat) else none := by
  have hv : v.toNat < 10 ^ 10 := by omega
  simpa [polyParse] using polyParseLoop_eq hv (acc := 0) (off := 0) (by decide)

theorem polyParse_eq_none {v : Word} : polyParse v = none ↔ ∃ d ∈ Nat.digits 10 v.toNat, 7 < d := by
  rw [polyParse_eq, ite_eq_right_iff, ← not_octalDigits_iff]
  simp only [reduceCtorEq, imp_false]

theorem polyParse_eq_some {v : Word} {m : Nat} :
    polyParse v = some m ↔ OctalDigits v.toNat ∧ octalValue v.toNat = m := by
  rw [polyParse_eq, Option.ite_none_right_eq_some, Option.some.injEq]

/-- No mask is above that of 4277777777, since every 32-bit number is below 4300000000 (R111). -/
theorem polyParse_le {v : Word} {m : Nat} (h : polyParse v = some m) : m ≤ 0x22FFFFFF := by
  obtain ⟨hd, rfl⟩ := polyParse_eq_some.mp h
  have hbound : octalValue 4300000000 = 0x23000000 := by norm_num [octalValue, Nat.ofDigits]
  have := octalValue_lt hd (by omega : v.toNat < 4300000000)
  omega

/-! ### PARSE -/

variable {s : State} {idx : BitVec 8}

theorem exec_parse_of_mask {m : Nat} (hidx : idx.toNat < s.params.nmax)
    (hm : polyParse (s.polyRaw.getD idx.toNat 0#32) = some m) :
    exec (.parse idx) s = .next (completed { s with parseResult := BitVec.ofNat 32 m } 0#3 0#32) := by
  obtain ⟨hidx', -⟩ | ⟨-, hm', -⟩ | ⟨m', -, hm', h⟩ := execParse_cases idx s
  · omega
  · cases hm'.symm.trans hm
  · cases hm'.symm.trans hm
    exact h

theorem exec_parse_of_bad_digit (hidx : idx.toNat < s.params.nmax)
    (hm : polyParse (s.polyRaw.getD idx.toNat 0#32) = none) :
    exec (.parse idx) s = .next (completed s 1#3 (polyErrorInfo idx.toNat 1)) := by
  obtain ⟨hidx', -⟩ | ⟨-, -, h⟩ | ⟨m', -, hm', -⟩ := execParse_cases idx s
  · omega
  · exact h
  · cases hm'.symm.trans hm

end Sys2Proof.Machine
end

section
/-! PROOFS. CONFIG: its polynomial checks in the order of `j` (R107), and which steps leave the configuration (R110). -/

namespace Sys2Proof.Machine

open Sys2Proof.Claims

/-! ### The polynomial checks -/

/-- The polynomial passes the checks of a CONFIG with this `k` (R107). -/
def PolyFits (k : Nat) (v : Word) : Prop := ∃ m, polyParse v = some m ∧ m < 2 ^ k

/-- The mask of a polynomial that parses. -/
def maskOf (v : Word) : Nat := (polyParse v).getD 0

theorem PolyFits.polyParse_eq_maskOf {k : Nat} {v : Word} (h : PolyFits k v) : polyParse v = some (maskOf v) := by
  obtain ⟨m, hm, -⟩ := h
  rw [maskOf, hm, Option.getD_some]

/-- Polynomials that pass are parsed to their masks, and the checks go on with those after them. -/
theorem parsePolys_append {k i : Nat} {vs : List Word} (hfit : ∀ v ∈ vs, PolyFits k v) (ws : List Word) :
    parsePolys k i (vs ++ ws) = (parsePolys k (i + vs.length) ws).map (vs.map maskOf ++ ·) := by
  induction vs generalizing i with
  | nil => cases h : parsePolys k i ws <;> simp [h, Except.map]
  | cons v vs ih =>
    obtain ⟨⟨m, hm, hlt⟩, hvs⟩ := List.forall_mem_cons.mp hfit
    rw [List.cons_append, parsePolys, hm, List.length_cons, show i + (vs.length + 1) = i + 1 + vs.length by omega]
    simp only [if_neg hlt.not_ge, ih hvs]
    cases parsePolys k (i + 1 + vs.length) ws <;> simp [Except.map, maskOf, hm]

theorem parsePolys_of_fits {k i : Nat} {vs : List Word} (hfit : ∀ v ∈ vs, PolyFits k v) :
    parsePolys k i vs = .ok (vs.map maskOf) := by
  simpa [parsePolys, Except.map] using parsePolys_append (i := i) hfit []

/-- A failure at the first polynomial after those that pass is the failure of the whole list. -/
theorem parsePolys_error_at {k j : Nat} {vs : List Word} {info : Word} (hj : j < vs.length)
    (hfit : ∀ v ∈ vs.take j, PolyFits k v) (hbad : ∀ ws, parsePolys k j (vs[j] :: ws) = .error info) :
    parsePolys k 0 vs = .error info := by
  have hlen : (vs.take j).length = j := by simp; omega
  rw [← List.take_append_drop j vs, parsePolys_append hfit, hlen, Nat.zero_add, List.drop_eq_getElem_cons hj, hbad]
  rfl

theorem parsePolys_cons_of_bad_digit {k j : Nat} {v : Word} (hm : polyParse v = none) (ws : List Word) :
    parsePolys k j (v :: ws) = .error (polyErrorInfo j 1) := by
  simp only [parsePolys, hm]

theorem parsePolys_cons_of_too_wide {k j m : Nat} {v : Word} (hm : polyParse v = some m) (hwide : 2 ^ k ≤ m)
    (ws : List Word) : parsePolys k j (v :: ws) = .error (polyErrorInfo j 2) := by
  simp only [parsePolys, hm, if_pos hwide]

/-- What holds of the first `j` entries of a list by their indexes holds of the list's first `j` members. -/
theorem forall_mem_take_of_getD {α : Type} {P : α → Prop} {l : List α} {d : α} {j : Nat}
    (h : ∀ i, i < j → P (l.getD i d)) : ∀ v ∈ l.take j, P v := by
  intro v hv
  obtain ⟨i, hi, rfl⟩ := List.mem_take_iff_getElem.mp hv
  simpa [List.getElem?_eq_getElem (show i < l.length by omega)] using h i (by omega)

/-! ### CONFIG -/

section

variable {s : State} {k n : BitVec 8}

theorem exec_config_of_bad_k (hk : k.toNat < 2 ∨ s.params.kmax < k.toNat) :
    exec (.config k n) s = .next (completed s 2#3 1#32) := by
  obtain ⟨-, h⟩ | ⟨hk', -⟩ | ⟨_, hk', -⟩ | ⟨_, hk', -⟩ := execConfig_cases k n s
  · exact h
  all_goals omega

theorem exec_config_of_bad_n (hk : 2 ≤ k.toNat ∧ k.toNat ≤ s.params.kmax)
    (hn : n.toNat < 1 ∨ s.params.nmax < n.toNat) : exec (.config k n) s = .next (completed s 2#3 2#32) := by
  obtain ⟨hk', -⟩ | ⟨-, -, h⟩ | ⟨_, -, hn', -⟩ | ⟨_, -, hn', -⟩ := execConfig_cases k n s
  · omega
  · exact h
  all_goals omega

theorem exec_config_of_bad_poly {info : Word} (hk : 2 ≤ k.toNat ∧ k.toNat ≤ s.params.kmax)
    (hn : 1 ≤ n.toNat ∧ n.toNat ≤ s.params.nmax)
    (hp : parsePolys k.toNat 0 (s.polyRaw.take n.toNat) = .error info) :
    exec (.config k n) s = .next (completed s 1#3 info) := by
  obtain ⟨hk', -⟩ | ⟨-, hn', -⟩ | ⟨_, -, -, hp', h⟩ | ⟨_, -, -, hp', -⟩ := execConfig_cases k n s
  · omega
  · omega
  · cases hp'.symm.trans hp
    exact h
  · cases hp'.symm.trans hp

theorem exec_config_of_masks {masks : List Nat} (hk : 2 ≤ k.toNat ∧ k.toNat ≤ s.params.kmax)
    (hn : 1 ≤ n.toNat ∧ n.toNat ≤ s.params.nmax)
    (hp : parsePolys k.toNat 0 (s.polyRaw.take n.toNat) = .ok masks) :
    exec (.config k n) s = .next (completed (s.configure k n masks) 0#3 0#32) := by
  obtain ⟨hk', -⟩ | ⟨-, hn', -⟩ | ⟨_, -, -, hp', -⟩ | ⟨_, -, -, hp', h⟩ := execConfig_cases k n s
  · omega
  · omega
  · cases hp'.symm.trans hp
  · cases hp'.symm.trans hp
    exact h

/-- CONFIG ends with the first failure among its polynomials, when its operands are in range (R107). -/
theorem exec_config_of_first_bad_poly {j : Nat} {info : Word} (hlen : s.polyRaw.length = s.params.nmax)
    (hk : 2 ≤ k.toNat ∧ k.toNat ≤ s.params.kmax) (hn : n.toNat ≤ s.params.nmax) (hj : j < n.toNat)
    (hfit : ∀ i, i < j → PolyFits k.toNat (s.polyRaw.getD i 0#32))
    (hbad : ∀ ws, parsePolys k.toNat j (s.polyRaw.getD j 0#32 :: ws) = .error info) :
    exec (.config k n) s = .next (completed s 1#3 info) := by
  have hraw : j < s.polyRaw.length := by omega
  refine exec_config_of_bad_poly hk (by omega) (parsePolys_error_at (j := j) (by simp; omega) ?_ ?_)
  · rw [List.take_take, Nat.min_eq_left hj.le]
    exact forall_mem_take_of_getD hfit
  · simpa [hraw] using hbad

end

/-! ### The configuration -/

section

variable {s t : State}

/-- The two states hold the same configuration: CFG_K, CFG_N, POLY_MASK and CFG_VALID. -/
def SameConfiguration (s t : State) : Prop :=
  t.cfgK = s.cfgK ∧ t.cfgN = s.cfgN ∧ t.polyMask = s.polyMask ∧ t.cfgValid = s.cfgValid

theorem Effect.sameConfiguration {i : Instr} (h : Effect s i t) (hi : ∀ k n, i ≠ .config k n) :
    SameConfiguration s t := by
  cases h with
  | config => exact absurd rfl (hi _ _)
  | parse | encrst | encode | decode | intlv | turbo => exact ⟨rfl, rfl, rfl, rfl⟩

/-- No command but CONFIG writes the configuration (R110). -/
theorem exec_sameConfiguration {i : Instr} (h : exec i s = .next t) (hi : ∀ k n, i ≠ .config k n) :
    SameConfiguration s t := by
  obtain ⟨kind, info, rfl, -⟩ | ⟨u, rfl, hu⟩ := exec_next h
  · exact ⟨rfl, rfl, rfl, rfl⟩
  · exact hu.sameConfiguration hi

/-- A CONFIG is in progress. -/
def ConfigInProgress (s : State) : Prop := ∃ w k n, s.inFlight = some w ∧ decode s.params w = .ok (.config k n)

theorem coreTurn_configuration (h : coreTurn s = .next t) : ConfigInProgress s ∨ SameConfiguration s t := by
  obtain ⟨-, he⟩ | ⟨w, e, -, -, he⟩ | ⟨w, i, hw, hd, he⟩ := coreTurn_cases s
  · obtain rfl := Host.Outcome.next.inj (he.symm.trans h)
    exact .inr ⟨rfl, rfl, rfl, rfl⟩
  · obtain rfl := Host.Outcome.next.inj (he.symm.trans h)
    exact .inr ⟨rfl, rfl, rfl, rfl⟩
  · by_cases hi : ∃ k n, i = .config k n
    · obtain ⟨k, n, rfl⟩ := hi
      exact .inl ⟨w, k, n, hw, hd⟩
    · exact .inr (exec_sameConfiguration (he.symm.trans h) fun k n hkn => hi ⟨k, n, hkn⟩)

theorem hostAccess_sameConfiguration {a : Access} (h : hostAccess a s = .next t) : SameConfiguration s t := by
  obtain ⟨_, _, l, v, -, -, -, -, rfl⟩ | ⟨_, _, v, -, -, ⟨-, rfl⟩ | ⟨-, rfl⟩ | ⟨j, -, rfl⟩ | ⟨w, -, rfl⟩⟩ :=
    hostAccess_next h <;> exact ⟨rfl, rfl, rfl, rfl⟩

end

end Sys2Proof.Machine
end

section
/-! PROOFS. The statements about PARSE and CONFIG (40_config_parser.md), from the rules above. -/

namespace Sys2Proof.Machine

open Sys2Proof.Claims

/-- Settles O23: `polyParse_eq` for the two cases, and `polyParse_le` for the largest mask. -/
theorem polyParseReadsDecimalDigitsAsOctal : Obligations.PolyParseReadsDecimalDigitsAsOctal := by
  unfold Obligations.PolyParseReadsDecimalDigitsAsOctal
  refine ⟨fun v => polyParse_eq_none.mpr, fun v h => polyParse_eq_some.mpr ⟨h, rfl⟩, by decide,
    fun v m h => ?_⟩
  have := polyParse_le h
  omega

/-- Settles O24: PARSE ends as the parser does, which reads the digits as octal or fails. -/
theorem parseWritesTheMask : Obligations.ParseWritesTheMask := by
  unfold Obligations.ParseWritesTheMask
  intro s idx hidx
  exact ⟨fun hgood => exec_parse_of_mask hidx (polyParse_eq_some.mpr ⟨hgood, rfl⟩),
    fun hbad => exec_parse_of_bad_digit hidx (polyParse_eq_none.mpr hbad)⟩

/-- Settles O25: the two range checks of CONFIG, in their order. -/
theorem configRefusesOperandsOutOfRange : Obligations.ConfigRefusesOperandsOutOfRange := by
  unfold Obligations.ConfigRefusesOperandsOutOfRange
  intro s k n
  exact ⟨exec_config_of_bad_k, fun hlo hhi => exec_config_of_bad_n ⟨hlo, hhi⟩⟩

/-- Settles O26: `exec_config_of_first_bad_poly`, where the first bad polynomial has a bad digit or is too wide. -/
theorem configReportsTheFirstBadPolynomial : Obligations.ConfigReportsTheFirstBadPolynomial := by
  unfold Obligations.ConfigReportsTheFirstBadPolynomial
  intro s k n j hlen hlo hhi hn hj hfit
  exact ⟨fun hm => exec_config_of_first_bad_poly hlen ⟨hlo, hhi⟩ hn hj hfit (parsePolys_cons_of_bad_digit hm),
    fun m hm hwide =>
      exec_config_of_first_bad_poly hlen ⟨hlo, hhi⟩ hn hj hfit (parsePolys_cons_of_too_wide hm hwide)⟩

/-- Settles O27: every check passes by `parsePolys_of_fits`, and the masks stand where `State.configure` puts them. -/
theorem configCommitsTheConfiguration : Obligations.ConfigCommitsTheConfiguration := by
  unfold Obligations.ConfigCommitsTheConfiguration
  intro s k n hlen _ hklo hkhi hnlo hnhi hfit
  have hp := parsePolys_of_fits (i := 0) (forall_mem_take_of_getD (P := PolyFits k.toNat) hfit)
  have hmasks : ((s.polyRaw.take n.toNat).map maskOf).length = n.toNat := by simp; omega
  refine ⟨_, exec_config_of_masks ⟨hklo, hkhi⟩ ⟨hnlo, hnhi⟩ hp, rfl, ?_, fun j hj => ?_, fun j hj => ?_⟩
  · simp [State.configure, completed]
    omega
  · have hmask := PolyFits.polyParse_eq_maskOf (hfit j hj)
    have hraw : s.polyRaw.getD j 0#32 = s.polyRaw[j] := by simp [show j < s.polyRaw.length by omega]
    have hget := configure_mask_of_lt s k n (hmasks.symm ▸ hj : j < ((s.polyRaw.take n.toNat).map maskOf).length)
    rw [List.getElem_map, List.getElem_take, ← hraw] at hget
    rw [hmask, completed, hget, BitVec.toNat_ofNat, Nat.mod_eq_of_lt]
    have := polyParse_lt hmask
    omega
  · exact configure_mask_of_le s k n (hmasks.trans_le hj)

/-- Settles O28: by the turn that the step is. -/
theorem onlyConfigAndResetChangeTheConfiguration : Obligations.OnlyConfigAndResetChangeTheConfiguration := by
  unfold Obligations.OnlyConfigAndResetChangeTheConfiguration
  intro s t h
  obtain ⟨hnil, he⟩ | ⟨rest, hcore, he⟩ | ⟨a, rest, -, he⟩ | ⟨c, rest, -, he⟩ | ⟨rest, hreset, -⟩ := step_next h
  · obtain ⟨w, k, n, hw, hd⟩ | hsame := coreTurn_configuration he
    · exact .inr (.inl ⟨w, k, n, hw, hd, .inl hnil⟩)
    · exact .inr (.inr hsame)
  · obtain ⟨w, k, n, hw, hd⟩ | hsame := coreTurn_configuration he
    · exact .inr (.inl ⟨w, k, n, hw, hd, .inr ⟨rest, hcore⟩⟩)
    · exact .inr (.inr hsame)
  · exact .inr (.inr (hostAccess_sameConfiguration (s := { s with agenda := rest }) he))
  · obtain ⟨turns, -, rfl⟩ := hostStatement_next he
    exact .inr (.inr ⟨rfl, rfl, rfl, rfl⟩)
  · exact .inl ⟨rest, hreset⟩

end Sys2Proof.Machine
end

section
/-! PROOFS. The convolutional encoder in closed form (R121 to R129): a bit of the register is an input bit or a bit of the
first register value, an output bit is the XOR of the register bits under a mask, and the group of an input bit is that of
the register after it. -/

namespace Sys2Proof.Machine

open Sys2Proof.Claims

/-! ### The register bit by bit (R121) -/

theorem encStep_testBit_zero {w : Nat} (hw : 0 < w) (reg : Nat) (b : Bool) : (encStep w reg b).testBit 0 = b := by
  rw [encStep_eq_mod, Nat.testBit_mod_two_pow, decide_eq_true hw, Bool.true_and, Nat.testBit_zero]
  cases b <;> simp [Nat.add_mod]

theorem encStep_testBit_succ {w i : Nat} (hi : i + 1 < w) (reg : Nat) (b : Bool) :
    (encStep w reg b).testBit (i + 1) = reg.testBit i := by
  have hhalf : (2 * reg + b.toNat) / 2 = reg := by cases b <;> simp [Nat.mul_add_div]
  rw [encStep_eq_mod, Nat.testBit_mod_two_pow, decide_eq_true hi, Bool.true_and, Nat.testBit_succ, hhalf]

/-- Bit `i` of the register after input bit `q` (R129), by induction on `q`: a step moves every bit up by one. -/
theorem shiftIn_testBit {w i : Nat} (hi : i < w) (input : Nat → Bool) (r0 q : Nat) :
    (shiftIn w r0 ((List.range (q + 1)).map input)).testBit i = regBit input r0 q i := by
  induction q generalizing i with
  | zero =>
    cases i with
    | zero => exact encStep_testBit_zero hi r0 (input 0)
    | succ i => simpa [regBit] using encStep_testBit_succ hi r0 (input 0)
  | succ q ih =>
    rw [List.range_succ, List.map_append, shiftIn_append]
    cases i with
    | zero => exact encStep_testBit_zero hi _ (input (q + 1))
    | succ i =>
      refine (encStep_testBit_succ hi _ (input (q + 1))).trans ((ih (by omega)).trans ?_)
      simp [regBit]

theorem inputBits_take (s : State) {n : Nat} (hn : n ≤ s.ilen.toNat) :
    (inputBits s).take n = (List.range n).map (ibufBit s) := by
  rw [inputBits, ← List.map_take, List.take_range, Nat.min_eq_left hn]

/-- The register always fits the word that ENC_REG is, also before the first step. -/
theorem shiftIn_lt_word {w : Nat} (hw : w ≤ 32) (r0 : Word) (bs : Bits) : shiftIn w r0.toNat bs < 2 ^ 32 := by
  cases bs with
  | nil => exact r0.isLt
  | cons b bs => exact (shiftIn_lt (encStep_lt w _ b) bs).trans_le (Nat.pow_le_pow_right two_pos hw)

/-- A number below `2^w` is the sum of its bits. -/
theorem sum_testBit_range {w x : Nat} (hx : x < 2 ^ w) :
    ((List.range w).map (fun i => (x.testBit i).toNat <<< i)).sum = x := by
  have low (n : Nat) : ((List.range n).map (fun i => (x.testBit i).toNat <<< i)).sum = x % 2 ^ n := by
    induction n with
    | zero => simp [Nat.mod_one]
    | succ n ih =>
      rw [List.range_succ, List.map_append, List.sum_append, ih, Nat.mod_pow_succ, ← Nat.toNat_testBit, Nat.mul_comm,
        ← Nat.shiftLeft_eq]
      simp
  rw [low, Nat.mod_eq_of_lt hx]

/-! ### An output bit (R122) -/

/-- The XOR of a sequence of bits is the parity of the number of its ones. -/
theorem xorAll_map_range (f : Nat → Bool) (n : Nat) :
    xorAll ((List.range n).map f) = ((List.range n).countP f % 2 == 1) := by
  induction n with
  | zero => rfl
  | succ n ih =>
    have hlast : xorAll ((List.range (n + 1)).map f) = xor (xorAll ((List.range n).map f)) (f n) := by
      simp [xorAll, List.range_succ]
    rw [hlast, ih, List.range_succ, List.countP_append, List.countP_singleton]
    obtain h | h := Nat.mod_two_eq_zero_or_one ((List.range n).countP f) <;> cases f n <;> simp [Nat.add_mod, h]

/-- An output bit is the XOR of the register bits under the mask; mask bits above the register meet no register bit. -/
theorem encOut_eq_xorAll {w reg : Nat} (hw : w ≤ 32) (hreg : reg < 2 ^ w) (tapMask : Nat) :
    encOut reg tapMask = xorAll ((List.range w).map (fun i => tapMask.testBit i && reg.testBit i)) := by
  have habove (i : Nat) : reg.testBit (w + i) = false :=
    Nat.testBit_lt_two_pow (hreg.trans_le (Nat.pow_le_pow_right two_pos (Nat.le_add_right w i)))
  have hrange : List.range 32 = List.range w ++ (List.range (32 - w)).map (w + ·) := by
    rw [← List.range_add, Nat.add_sub_cancel' hw]
  rw [xorAll_map_range, encOut, parity, popcount, hrange, List.countP_append, List.countP_map]
  simp [Function.comp_def, habove, Bool.and_comm]

/-- Only the mask bits below the width of the register influence an output bit (R128). -/
theorem encOut_and_mask {w reg : Nat} (hreg : reg < 2 ^ w) (tapMask : Nat) :
    encOut reg (tapMask &&& mask w) = encOut reg tapMask := by
  rw [encOut, encOut, mask, Nat.and_comm tapMask, ← Nat.and_assoc, Nat.and_two_pow_sub_one_of_lt_two_pow hreg]

/-! ### The codeword (R123) -/

/-- Position `q*N + j` holds the output of polynomial `j` for the register after input bit `q`. -/
theorem codeword_getElem? {w q j tapMask : Nat} {masks : List Nat} {bs : Bits} (hq : q < bs.length)
    (hj : masks[j]? = some tapMask) (reg : Nat) :
    (codeword w masks reg bs)[q * masks.length + j]? = some (encOut (shiftIn w reg (bs.take (q + 1))) tapMask) := by
  have hjlen : j < masks.length := (List.getElem?_eq_some_iff.mp hj).1
  have hlast : (codeword w masks reg (bs.take (q + 1))).length = q * masks.length + masks.length := by
    simp [Nat.min_eq_left (Nat.succ_le_of_lt hq), Nat.succ_mul]
  have hhead : (codeword w masks reg (bs.take q)).length = q * masks.length := by simp [hq.le]
  conv_lhs => rw [← List.take_append_drop (q + 1) bs, codeword_append]
  rw [List.getElem?_append_left (by omega), ← List.take_append_getElem hq, codeword_append, shiftIn_append,
    List.getElem?_append_right (by omega), hhead, Nat.add_sub_cancel_left]
  simp [codeword, outGroup, hj]

/-- The codeword depends on the masks only through the groups of the values that the register can hold. -/
theorem codeword_congr {w : Nat} {masks masks' : List Nat}
    (h : ∀ reg, reg < 2 ^ w → outGroup masks reg = outGroup masks' reg) (reg : Nat) (bs : Bits) :
    codeword w masks reg bs = codeword w masks' reg bs := by
  induction bs generalizing reg with
  | nil => rfl
  | cons b bs ih => rw [codeword, codeword, h _ (encStep_lt w reg b), ih]

end Sys2Proof.Machine
end

section
/-! PROOFS. What ENCODE leaves (R125), by the rules of the register and the codeword: each output bit and ENC_REG in closed
form (R129), the rate law (R127), and the same under masks cut to the width of the register (R128). -/

namespace Sys2Proof.Machine

open Sys2Proof.Claims

variable {s t : State}

/-- The block after an ENCODE that succeeds (R125). -/
def State.afterEncode (s : State) : State :=
  ({ s with encReg := BitVec.ofNat 32 (shiftIn (regWidth s) s.encReg.toNat (inputBits s)) }.output
    (codeword (regWidth s) (tapMasks s) s.encReg.toNat (inputBits s)) (s.ilen.toNat * polyCount s)).succeed

@[simp] theorem State.afterEncode_obuf (s : State) :
    s.afterEncode.obuf = codeword (regWidth s) (tapMasks s) s.encReg.toNat (inputBits s) := rfl

@[simp] theorem State.afterEncode_encReg (s : State) :
    s.afterEncode.encReg = BitVec.ofNat 32 (shiftIn (regWidth s) s.encReg.toNat (inputBits s)) := rfl

theorem exec_encode (hc : s.cfgValid = true) (hl : s.ilen.toNat ≤ s.params.lmax) :
    exec .encode s = .next s.afterEncode := by
  obtain ⟨h, -⟩ | ⟨-, h, -⟩ | ⟨-, -, h⟩ := execEncode_cases s
  · simp [hc] at h
  · omega
  · exact h

/-- An ENCODE that ends without an error has passed both checks (R125). -/
theorem exec_encode_success (h : exec .encode s = .next t) (ht : t.err = 0#3) :
    s.cfgValid = true ∧ s.ilen.toNat ≤ s.params.lmax ∧ t = s.afterEncode := by
  obtain ⟨kind, info, rfl, -⟩ | ⟨u, rfl, hu⟩ := exec_next h
  · exact absurd ht kind.code_ne_zero
  · cases hu with
    | encode hc hl => exact ⟨hc, hl, rfl⟩

theorem regWidth_le (hk : s.cfgK.toNat ≤ 31) : regWidth s ≤ 32 := by
  rw [regWidth]
  omega

/-- ENC_REG after ENCODE is the last register value, which fits a word for every K of R12. -/
theorem State.afterEncode_encReg_toNat (hk : s.cfgK.toNat ≤ 31) :
    s.afterEncode.encReg.toNat = shiftIn (regWidth s) s.encReg.toNat (inputBits s) := by
  rw [State.afterEncode_encReg, BitVec.toNat_ofNat, Nat.mod_eq_of_lt (shiftIn_lt_word (regWidth_le hk) s.encReg _)]

/-- The rate law (R127), on the length of the codeword; the invariant ties OLEN to it. -/
theorem State.afterEncode_length (hinv : s.Inv) (hc : s.cfgValid = true) :
    s.afterEncode.obuf.length = s.ilen.toNat * s.cfgN.toNat := by
  rw [State.afterEncode_obuf, codeword_length, inputBits_length, tapMasks_length_of_inv hinv hc]

theorem State.afterEncode_olen_toNat (hinv : s.Inv) (hc : s.cfgValid = true) (hl : s.ilen.toNat ≤ s.params.lmax) :
    s.afterEncode.olen.toNat = s.ilen.toNat * s.cfgN.toNat :=
  (hinv.exec (exec_encode hc hl)).obuf_len.symm.trans (State.afterEncode_length hinv hc)

theorem State.Inv.cfgK_le (hinv : s.Inv) (hc : s.cfgValid = true) : s.cfgK.toNat ≤ 31 :=
  (hinv.configured hc).k_hi.trans hinv.legal.kmax_hi

theorem tapMasks_getElem?_of_inv {j : Nat} (hinv : s.Inv) (hc : s.cfgValid = true) (hj : j < s.cfgN.toNat) :
    (tapMasks s)[j]? = some (s.polyMask.getD j 0#32).toNat := by
  have hlen : j < s.polyMask.length := by
    rw [hinv.mask_len]
    exact hj.trans_le (hinv.configured hc).n_hi
  simp [tapMasks, polyCount, hj, hlen]

theorem shiftIn_inputBits_lt (hinv : s.Inv) (hc : s.cfgValid = true) (n : Nat) :
    shiftIn (regWidth s) s.encReg.toNat ((inputBits s).take n) < 2 ^ regWidth s :=
  shiftIn_lt (hinv.configured hc).reg_fits _

/-- The register after input bit `q` of the input sequence, bit by bit (R129). -/
theorem shiftIn_inputBits_testBit {q i : Nat} (hq : q < s.ilen.toNat) (hi : i < regWidth s) :
    (shiftIn (regWidth s) s.encReg.toNat ((inputBits s).take (q + 1))).testBit i =
      regBit (ibufBit s) s.encReg.toNat q i := by
  rw [inputBits_take s hq, shiftIn_testBit hi]

/-- `OBUF[q*N + j]` after ENCODE in the closed form of R129. -/
theorem State.afterEncode_obuf_getElem? {q j : Nat} (hinv : s.Inv) (hc : s.cfgValid = true) (hq : q < s.ilen.toNat)
    (hj : j < s.cfgN.toNat) : s.afterEncode.obuf[q * s.cfgN.toNat + j]? = some (encodedBit s q j) := by
  rw [State.afterEncode_obuf, ← tapMasks_length_of_inv hinv hc,
    codeword_getElem? (by simpa using hq) (tapMasks_getElem?_of_inv hinv hc hj),
    encOut_eq_xorAll (regWidth_le (hinv.cfgK_le hc)) (shiftIn_inputBits_lt hinv hc _), encodedBit]
  congr 2
  refine List.map_congr_left fun i hi => ?_
  rw [shiftIn_inputBits_testBit hq (List.mem_range.mp hi), maskBit, BitVec.testBit_toNat]

/-- The last register value as the sum of its bits (R129). -/
theorem State.afterEncode_encReg_eq_sum (hinv : s.Inv) (hc : s.cfgValid = true) (hpos : 1 ≤ s.ilen.toNat) :
    s.afterEncode.encReg.toNat = ((List.range (regWidth s)).map
      (fun i => (regBit (ibufBit s) s.encReg.toNat (s.ilen.toNat - 1) i).toNat <<< i)).sum := by
  have hall : (inputBits s).take (s.ilen.toNat - 1 + 1) = inputBits s := List.take_of_length_le (by simp; omega)
  rw [State.afterEncode_encReg_toNat (hinv.cfgK_le hc), ← hall, ← sum_testBit_range (shiftIn_inputBits_lt hinv hc _)]
  congr 1
  refine List.map_congr_left fun i hi => ?_
  rw [shiftIn_inputBits_testBit (by omega) (List.mem_range.mp hi)]

/-! ### ENCODE with other masks (R128) -/

/-- The state with other tap masks. -/
def State.setMasks (masks : List Word) (s : State) : State := { s with polyMask := masks }

/-- ENCODE takes the same way under masks that give the same groups. -/
theorem exec_encode_setMasks {masks : List Word}
    (h : ∀ reg, reg < 2 ^ regWidth s → outGroup (tapMasks (s.setMasks masks)) reg = outGroup (tapMasks s) reg) :
    exec .encode (s.setMasks masks) = mapNext (.setMasks masks) (exec .encode s) := by
  have hbits : codeword (regWidth s) (tapMasks (s.setMasks masks)) s.encReg.toNat (inputBits s) =
      codeword (regWidth s) (tapMasks s) s.encReg.toNat (inputBits s) := codeword_congr h _ _
  simp only [exec, execEncode, apply_ite (mapNext _), ← hbits]
  rfl

/-- Every mask cut to the width of the register (R128). -/
def State.effectiveMasks (s : State) : List Word :=
  s.polyMask.map (fun m => m &&& BitVec.ofNat 32 (2 ^ (s.cfgK.toNat - 1) - 1))

theorem tapMasks_effectiveMasks (hk : s.cfgK.toNat ≤ 31) :
    tapMasks (s.setMasks s.effectiveMasks) = (tapMasks s).map (· &&& mask (regWidth s)) := by
  have hmask : (BitVec.ofNat 32 (2 ^ (s.cfgK.toNat - 1) - 1)).toNat = mask (regWidth s) := by
    have : 2 ^ (s.cfgK.toNat - 1) ≤ 2 ^ 32 := Nat.pow_le_pow_right two_pos (by omega)
    rw [BitVec.toNat_ofNat, Nat.mod_eq_of_lt (by omega), mask, regWidth]
  simp [tapMasks, polyCount, State.setMasks, State.effectiveMasks, ← List.map_take, ← hmask]

theorem outGroup_effectiveMasks {reg : Nat} (hk : s.cfgK.toNat ≤ 31) (hreg : reg < 2 ^ regWidth s) :
    outGroup (tapMasks (s.setMasks s.effectiveMasks)) reg = outGroup (tapMasks s) reg := by
  simp [tapMasks_effectiveMasks hk, outGroup, encOut_and_mask hreg]

end Sys2Proof.Machine
end

section
/-! PROOFS. The statements about the encoder (41_conv_encoder.md), from the rules above. -/

namespace Sys2Proof.Machine

/-- Settles O30: ENCRST has the one arm. -/
theorem encrstClearsTheEncoderRegister : Obligations.EncrstClearsTheEncoderRegister := fun _ => rfl

/-- Settles O31: the register by `shiftIn_inputBits_testBit`, the output bits as its XOR under each mask, OLEN by the rate
law. -/
theorem encodeClosedForm : Obligations.EncodeClosedForm := by
  unfold Obligations.EncodeClosedForm
  intro s hinv hc hl
  refine ⟨s.afterEncode, exec_encode hc hl, rfl, State.afterEncode_olen_toNat hinv hc hl,
    fun _ _ => State.afterEncode_obuf_getElem? hinv hc, fun _ _ => shiftIn_inputBits_testBit,
    State.afterEncode_encReg_eq_sum hinv hc, fun hzero => ?_⟩
  simp [inputBits, hzero]

/-- Settles O32: `codeword_append` and `shiftIn_append`, since ENC_REG keeps the whole register between the commands. -/
theorem encodeContinuesTheStream : Obligations.EncodeContinuesTheStream := by
  unfold Obligations.EncodeContinuesTheStream
  intro sb sc su tb tc tu hKb hNb hMb hRb hKc hNc hMc hin hk hb htb hreg hc htc hu htu
  obtain ⟨-, -, rfl⟩ := exec_encode_success hb htb
  obtain ⟨-, -, rfl⟩ := exec_encode_success hc htc
  obtain ⟨-, -, rfl⟩ := exec_encode_success hu htu
  have hwb : regWidth sb = regWidth su := by rw [regWidth, hKb, regWidth]
  have hwc : regWidth sc = regWidth su := by rw [regWidth, hKc, regWidth]
  have hmb : tapMasks sb = tapMasks su := by rw [tapMasks, polyCount, hNb, hMb, tapMasks, polyCount]
  have hmc : tapMasks sc = tapMasks su := by rw [tapMasks, polyCount, hNc, hMc, tapMasks, polyCount]
  have hmid : sc.encReg.toNat = shiftIn (regWidth su) su.encReg.toNat (inputBits sb) := by
    rw [hreg, State.afterEncode_encReg_toNat (hKb ▸ hk), hwb, hRb]
  constructor
  · simp only [State.afterEncode_obuf, hin, codeword_append, hwb, hwc, hmb, hmc, hRb, hmid]
  · simp only [State.afterEncode_encReg, hin, shiftIn_append, hwc, hmid]

/-- Settles O33: the length of the codeword, and the bounds of R12. -/
theorem encodeRateLaw : Obligations.EncodeRateLaw := by
  unfold Obligations.EncodeRateLaw
  intro s t hinv h ht
  obtain ⟨hc, hl, rfl⟩ := exec_encode_success h ht
  have holen := State.afterEncode_olen_toNat hinv hc hl
  refine ⟨holen, State.afterEncode_length hinv hc, ?_, ?_⟩
  · rw [holen]
    exact Nat.mul_le_mul hl (hinv.configured hc).n_hi
  · exact Nat.mul_lt_mul_of_pos_left (by omega) hinv.legal.lmax_lo

/-- Settles O34: the cut masks give the same group for every value that the register can hold. -/
theorem topMaskBitIsDead : Obligations.TopMaskBitIsDead := by
  unfold Obligations.TopMaskBitIsDead
  intro s t hinv hc h
  have hcut := exec_encode_setMasks (fun _ => outGroup_effectiveMasks (hinv.cfgK_le hc))
  rw [h] at hcut
  exact hcut

end Sys2Proof.Machine
end

section
/-! PROOFS. The trellis destination by destination: the two predecessors of a state (R154), the states that are
reachable after some steps (R149), and the walk of the traceback over them (R151). -/

namespace Sys2Proof.Machine

open Sys2Proof.Claims

/-! ### The transitions into a state (R154) -/

/-- Below half of the states the step loses no bit. -/
theorem encStep_of_lt {v s : Nat} (hs : s < 2 ^ v) (b : Bool) : encStep (v + 1) s b = 2 * s + b.toNat := by
  have := b.toNat_le
  rw [encStep_eq_mod, pow_succ, Nat.mod_eq_of_lt (by omega)]

/-- The step drops the top bit of the state. -/
theorem encStep_add_two_pow (v s : Nat) (b : Bool) : encStep (v + 1) (s + 2 ^ v) b = encStep (v + 1) s b := by
  have hsplit : 2 * (s + 2 ^ v) + b.toNat = 2 * s + b.toNat + 2 ^ (v + 1) := by omega
  rw [encStep_eq_mod, encStep_eq_mod, hsplit, Nat.add_mod_right]

theorem two_mul_add_toNat_eq_iff {s d : Nat} {b : Bool} :
    2 * s + b.toNat = d ↔ s = d >>> 1 ∧ b = d.testBit 0 := by
  constructor
  · rintro rfl
    cases b <;> simp [Nat.shiftRight_one, Nat.mul_add_div]
  · rintro ⟨rfl, rfl⟩
    rw [← Nat.bit_val, Nat.bit_testBit_zero_shiftRight_one]

theorem shiftRight_one_lt {v d : Nat} (hd : d < 2 ^ (v + 1)) : d >>> 1 < 2 ^ v := by
  rw [Nat.shiftRight_one]
  omega

/-- The upper predecessor of R154 as a sum. -/
theorem shiftRight_one_or_two_pow {v d : Nat} (hd : d < 2 ^ (v + 1)) : d >>> 1 ||| 2 ^ v = d >>> 1 + 2 ^ v := by
  have := Nat.two_pow_add_eq_or_of_lt (shiftRight_one_lt hd) 1
  rw [Nat.or_comm, ← Nat.mul_one (2 ^ v), ← this, Nat.add_comm]

/-- The transitions into `d` come from its two predecessors, with input bit `d & 1` (R154). -/
theorem encStep_eq_iff {v s d : Nat} {b : Bool} (hs : s < 2 ^ (v + 1)) (hd : d < 2 ^ (v + 1)) :
    encStep (v + 1) s b = d ↔ (s = d >>> 1 ∨ s = d >>> 1 ||| 2 ^ v) ∧ b = d.testBit 0 := by
  have hpred := shiftRight_one_lt hd
  rw [shiftRight_one_or_two_pow hd]
  rcases Nat.lt_or_ge s (2 ^ v) with hlow | hhigh
  · have : s ≠ d >>> 1 + 2 ^ v := by omega
    rw [encStep_of_lt hlow, two_mul_add_toNat_eq_iff]
    simp [this]
  · obtain ⟨r, rfl⟩ := Nat.exists_eq_add_of_le' hhigh
    have : r + 2 ^ v ≠ d >>> 1 := by omega
    rw [encStep_add_two_pow, encStep_of_lt (by omega), two_mul_add_toNat_eq_iff]
    simp [this]

/-- What predecessor `p` offers to `d` (R154): its metric and the branch metric of `d`, unless it is UNREACHED. -/
def arrival (masks : List Nat) (rx : Bits) (pm : List (Option Nat)) (d p : Nat) : Option Survivor :=
  (pm.getD p none).map (fun m => ⟨m + hammingDistance (outGroup masks d) rx, p, d.testBit 0⟩)

theorem filterMap_pair_of_none {α : Type} {f : Nat × Bool → Option α} {p : Nat} {b : Bool} (h : f (p, !b) = none) :
    [(p, false), (p, true)].filterMap f = (f (p, b)).toList := by
  cases hf : f (p, b) <;> cases b <;> simp_all

/-- A predecessor offers what `arrival` says over the one of its two transitions that leads to `d`. -/
theorem filterMap_candidate_of_pred {v p d : Nat} (hp : p < 2 ^ (v + 1)) (hd : d < 2 ^ (v + 1))
    (hpred : p = d >>> 1 ∨ p = d >>> 1 ||| 2 ^ v) (masks : List Nat) (rx : Bits) (pm : List (Option Nat)) :
    [(p, false), (p, true)].filterMap (candidate (v + 1) masks rx pm d) = (arrival masks rx pm d p).toList := by
  have hstep : encStep (v + 1) p (d.testBit 0) = d := (encStep_eq_iff hp hd).mpr ⟨hpred, rfl⟩
  have hthis : candidate (v + 1) masks rx pm d (p, d.testBit 0) = arrival masks rx pm d p := by
    simp only [candidate, branchMetric, arrival, hstep, if_true]
  have hother : candidate (v + 1) masks rx pm d (p, !d.testBit 0) = none :=
    if_neg fun h => by simpa using ((encStep_eq_iff hp hd).mp h).2
  rw [filterMap_pair_of_none hother, hthis]

theorem filterMap_candidate_of_not_pred {v p d : Nat} (hp : p < 2 ^ (v + 1)) (hd : d < 2 ^ (v + 1))
    (hpred : ¬ (p = d >>> 1 ∨ p = d >>> 1 ||| 2 ^ v)) (masks : List Nat) (rx : Bits) (pm : List (Option Nat)) :
    [(p, false), (p, true)].filterMap (candidate (v + 1) masks rx pm d) = [] := by
  have hnone (b : Bool) : candidate (v + 1) masks rx pm d (p, b) = none :=
    if_neg fun h => hpred ((encStep_eq_iff hp hd).mp h).1
  simp [hnone]

theorem flatMap_range_eq_of_unique {α : Type} {n p : Nat} {f : Nat → List α} (hp : p < n)
    (h : ∀ i < n, i ≠ p → f i = []) : (List.range n).flatMap f = f p := by
  have hbelow : (List.range p).flatMap f = [] := List.flatMap_eq_nil_iff.mpr fun i hi =>
    h i (by have := List.mem_range.mp hi; omega) (by have := List.mem_range.mp hi; omega)
  have habove : ((List.range (n - (p + 1))).map (p + 1 + ·)).flatMap f = [] := by
    simp only [List.flatMap_eq_nil_iff, List.forall_mem_map, List.mem_range]
    exact fun i hi => h _ (by omega) (by omega)
  rw [← Nat.add_sub_cancel' (Nat.succ_le_of_lt hp), List.range_add, List.flatMap_append, habove, List.range_succ,
    List.flatMap_append, hbelow]
  simp

/-- The candidates for `d`, in the order of R147: the lower predecessor's before the upper one's. -/
theorem filterMap_candidate_transitions {v d : Nat} (hd : d < 2 ^ (v + 1)) (masks : List Nat) (rx : Bits)
    (pm : List (Option Nat)) :
    (transitions (v + 1)).filterMap (candidate (v + 1) masks rx pm d) =
      (arrival masks rx pm d (d >>> 1)).toList ++ (arrival masks rx pm d (d >>> 1 ||| 2 ^ v)).toList := by
  have hpred := shiftRight_one_lt hd
  have hor := shiftRight_one_or_two_pow hd
  have hupper : 2 ^ v + d >>> 1 = d >>> 1 ||| 2 ^ v := (Nat.add_comm ..).trans hor.symm
  rw [transitions, List.filterMap_flatMap, pow_succ, Nat.mul_two, List.range_add, List.flatMap_append, List.flatMap_map]
  congr 1
  · rw [flatMap_range_eq_of_unique hpred fun i hi hne =>
      filterMap_candidate_of_not_pred (by omega) hd (by omega) masks rx pm]
    exact filterMap_candidate_of_pred (by omega) hd (.inl rfl) masks rx pm
  · rw [flatMap_range_eq_of_unique hpred fun i hi hne =>
      filterMap_candidate_of_not_pred (by omega) hd (by omega) masks rx pm, hupper]
    exact filterMap_candidate_of_pred (by omega) hd (.inr rfl) masks rx pm

/-- `ACS(t)` destination by destination, as a selection between the two predecessors (R154). -/
theorem acs_getD_arrivals {v d : Nat} (hd : d < 2 ^ (v + 1)) (masks : List Nat) (rx : Bits) (pm : List (Option Nat)) :
    (acs (v + 1) masks rx pm).getD d none = selectAll none
      ((arrival masks rx pm d (d >>> 1)).toList ++ (arrival masks rx pm d (d >>> 1 ||| 2 ^ v)).toList) := by
  rw [acs_getD hd, filterMap_candidate_transitions hd]

/-! ### Reachability (R149) -/

/-- A state has a metric. -/
abbrev Reached (pm : List (Option Nat)) (d : Nat) : Prop := (pm.getD d none).isSome = true

theorem reached_startMetrics_iff {w d : Nat} : Reached (startMetrics w) d ↔ d = 0 := by
  rw [Reached, startMetrics_getD]
  split <;> simp_all

/-- A step reaches exactly the states that a transition from a reached state leads to (R146, R147). -/
theorem reached_acs_iff {w : Nat} {masks : List Nat} {rx : Bits} {pm : List (Option Nat)} {d : Nat}
    (hlen : pm.length = 2 ^ w) :
    Reached (metricsOf (acs w masks rx pm)) d ↔ ∃ s b, Reached pm s ∧ encStep w s b = d := by
  rw [Reached, metricsOf_getD, Option.isSome_map, Option.isSome_iff_exists]
  constructor
  · rintro ⟨v, hv⟩
    obtain ⟨hstep, m, hm, -⟩ := acs_sound hv
    exact ⟨v.pred, v.bit, by rw [Reached, hm, Option.isSome_some], hstep⟩
  · rintro ⟨s, b, hs, rfl⟩
    obtain ⟨m, hm⟩ := Option.isSome_iff_exists.mp hs
    have hlt : s < 2 ^ w := by
      by_contra hge
      rw [List.getD_eq_default _ _ (by omega)] at hm
      cases hm
    obtain ⟨v, hv, -⟩ := acs_le (masks := masks) hlt hm rx b
    exact ⟨v, hv⟩

theorem trellisOf_metrics_length (w : Nat) (masks : List Nat) (groups : List Bits) :
    (trellisOf w masks groups).1.length = 2 ^ w := by
  induction groups using List.reverseRecOn with
  | nil => simp [trellisOf, trellis]
  | append_singleton groups rx _ => simp [trellisOf_snoc]

/-- One step doubles the range of the states reached, up to all of them. -/
theorem exists_encStep_iff {w t d : Nat} :
    (∃ s b, s < 2 ^ min t w ∧ encStep w s b = d) ↔ d < 2 ^ min (t + 1) w := by
  constructor
  · rintro ⟨s, b, hs, rfl⟩
    have hfull := encStep_lt w s b
    rcases Nat.lt_or_ge t w with htw | hwt
    · have := b.toNat_le
      rw [Nat.min_eq_left htw.le] at hs
      rw [Nat.min_eq_left htw, encStep_eq_mod, pow_succ]
      exact (Nat.mod_le _ _).trans_lt (by omega)
    · rwa [Nat.min_eq_right (by omega)]
  · intro hd
    have hw : d < 2 ^ w := hd.trans_le (Nat.pow_le_pow_right two_pos (Nat.min_le_right ..))
    have hle : 2 ^ min (t + 1) w ≤ 2 ^ (min t w + 1) := Nat.pow_le_pow_right two_pos (by omega)
    refine ⟨d >>> 1, d.testBit 0, shiftRight_one_lt (hd.trans_le hle), ?_⟩
    rw [encStep_eq_mod, two_mul_add_toNat_eq_iff.mpr ⟨rfl, rfl⟩, Nat.mod_eq_of_lt hw]

/-- R149, by induction on the steps. -/
theorem reached_trellisOf_iff {w : Nat} {masks : List Nat} {groups : List Bits} {d : Nat} :
    Reached (trellisOf w masks groups).1 d ↔ d < 2 ^ min groups.length w := by
  induction groups using List.reverseRecOn generalizing d with
  | nil =>
    refine reached_startMetrics_iff.trans ?_
    simp
  | append_singleton groups rx ih =>
    rw [trellisOf_snoc, reached_acs_iff (trellisOf_metrics_length ..)]
    simp only [ih, exists_encStep_iff, List.length_append, List.length_singleton]

theorem reached_finalState (w : Nat) (masks : List Nat) (groups : List Bits) :
    Reached (trellisOf w masks groups).1 (finalState (trellisOf w masks groups).1) := by
  have hzero : Reached (trellisOf w masks groups).1 0 := reached_trellisOf_iff.mpr (by positivity)
  obtain ⟨m, hm⟩ := Option.isSome_iff_exists.mp hzero
  obtain ⟨best, hbest, -⟩ := finalState_best hm
  rw [Reached, hbest, Option.isSome_some]

/-- The walk from a reached state is defined at every step, since a survivor's predecessor was reached (R148), and ends
where the trellis starts (R151). -/
theorem backWalk_of_reached {w : Nat} {masks : List Nat} {groups : List Bits} {d : Nat}
    (h : Reached (trellisOf w masks groups).1 d) : backWalk (trellisOf w masks groups).2 d = some 0 := by
  induction groups using List.reverseRecOn generalizing d with
  | nil => rw [reached_startMetrics_iff.mp h]; rfl
  | append_singleton groups rx ih =>
    rw [trellisOf_snoc] at h ⊢
    rw [Reached, metricsOf_getD, Option.isSome_map, Option.isSome_iff_exists] at h
    obtain ⟨v, hv⟩ := h
    obtain ⟨-, m, hm, -⟩ := acs_sound hv
    rw [backWalk, hv]
    exact ih (by rw [Reached, hm, Option.isSome_some])

/-! ### The metrics (R153) -/

/-- A metric is the distance of a path, and a path has as many bits as the groups (R153). -/
theorem trellisOf_metric_le {w : Nat} {masks : List Nat} {groups : List Bits} {d m : Nat}
    (hw : ∀ g ∈ groups, g.length = masks.length) (h : (trellisOf w masks groups).1.getD d none = some m) :
    m ≤ groups.length * masks.length := by
  obtain ⟨-, rfl⟩ := traceback_trellisOf hw h
  refine (hammingDistance_le _ _).trans_eq ?_
  simp [traceback_length, trellisOf_columns_length]

end Sys2Proof.Machine
end

section
/-! PROOFS. The decoded sequence among all sequences of its length: the lowest final state among the nearest ones
(R150), what the last bit owes to mask bit 0 (R155), and the code of K = 3 with the masks 7 and 5 (R156). -/

namespace Sys2Proof.Machine

open Sys2Proof.Claims

/-! ### Hamming distance -/

@[simp] theorem hammingDistance_cons (x y : Bool) (a b : Bits) :
    hammingDistance (x :: a) (y :: b) = hammingDistance a b + (xor x y).toNat := by
  cases hxy : xor x y <;> simp [hammingDistance, hxy]

theorem hammingDistance_eq_zero {a b : Bits} (hlen : a.length = b.length) (h : hammingDistance a b = 0) : a = b := by
  induction a generalizing b with
  | nil => exact (List.length_eq_zero_iff.mp hlen.symm).symm
  | cons x a ih =>
    cases b with
    | nil => cases hlen
    | cons y b =>
      rw [hammingDistance_cons, Nat.add_eq_zero_iff, Bool.toNat_eq_zero, bne_eq_false_iff_eq] at h
      rw [h.2, ih (Nat.succ.inj hlen) h.1]

theorem hammingDistance_triangle {a b r : Bits} (ha : a.length = b.length) (hr : r.length = b.length) :
    hammingDistance a b ≤ hammingDistance a r + hammingDistance b r := by
  induction a generalizing b r with
  | nil => exact Nat.zero_le _
  | cons x a ih =>
    cases b with
    | nil => cases ha
    | cons y b =>
      cases r with
      | nil => cases hr
      | cons z r =>
        have htail := ih (Nat.succ.inj ha) (Nat.succ.inj hr)
        have hhead : (xor x y).toNat ≤ (xor x z).toNat + (xor y z).toNat := by
          cases x <;> cases y <;> cases z <;> decide
        simp only [hammingDistance_cons]
        omega

theorem hammingDistance_flipAt {a : Bits} {p : Nat} (hp : p < a.length) : hammingDistance a (flipAt a p) = 1 := by
  induction a generalizing p with
  | nil => cases hp
  | cons x a ih =>
    cases p with
    | zero => simp [flipAt]
    | succ p => simpa [flipAt] using ih (Nat.lt_of_succ_lt_succ hp)

theorem flipAt_append_of_lt {a : Bits} {p : Nat} (hp : p < a.length) (b : Bits) :
    flipAt (a ++ b) p = flipAt a p ++ b := by
  induction a generalizing p with
  | nil => cases hp
  | cons x a ih =>
    cases p with
    | zero => rfl
    | succ p => simpa [flipAt] using ih (Nat.lt_of_succ_lt_succ hp)

theorem flipAt_append_length_add (a b : Bits) (k : Nat) : flipAt (a ++ b) (a.length + k) = a ++ flipAt b k := by
  induction a with
  | nil => simp
  | cons x a ih => simpa [flipAt, Nat.add_right_comm] using ih

/-! ### The decoded sequence is the least -/

section

variable {w : Nat} {masks : List Nat} {groups : List Bits}

/-- Among the nearest sequences the decoded one ends in the lowest state (R150). -/
theorem viterbi_least (hw : ∀ g ∈ groups, g.length = masks.length) {bs : Bits} (hb : bs.length = groups.length)
    (hle : hammingDistance (codeword w masks 0 bs) groups.flatten ≤
      hammingDistance (codeword w masks 0 (viterbi w masks groups)) groups.flatten) :
    shiftIn w 0 (viterbi w masks groups) ≤ shiftIn w 0 bs := by
  obtain ⟨m, hm, hmle⟩ := trellisOf_le (w := w) hw hb
  obtain ⟨best, hbest, hbm, htie⟩ := finalState_best hm
  obtain ⟨hend, hdist⟩ := traceback_trellisOf hw hbest
  rw [viterbi_eq_traceback, hdist] at hle
  rw [viterbi_eq_traceback, hend]
  exact htie (by omega)

/-- Bit 0 of a state is the newest input bit, so an input bit 1 leads to the higher state. -/
theorem encStep_true (hpos : 1 ≤ w) (reg : Nat) : encStep w reg true = encStep w reg false + 1 := by
  obtain ⟨v, rfl⟩ := Nat.exists_eq_add_of_le' hpos
  have hhalf : (2 * reg + 1) / 2 = reg := by omega
  rw [encStep_eq_mod, encStep_eq_mod, pow_succ', Nat.mod_mul, Nat.mod_mul]
  simp [hhalf]
  omega

/-- A last bit 1 is decoded only where it is strictly nearer than a last bit 0, since its final state is higher
(R150). -/
theorem viterbi_last_true (hpos : 1 ≤ w) (hw : ∀ g ∈ groups, g.length = masks.length) {bs : Bits}
    (h : viterbi w masks groups = bs ++ [true]) :
    hammingDistance (codeword w masks 0 (bs ++ [true])) groups.flatten <
      hammingDistance (codeword w masks 0 (bs ++ [false])) groups.flatten := by
  by_contra hge
  have hlen : (bs ++ [false]).length = groups.length := by
    rw [← viterbi_length w masks groups, h]
    simp
  have hle := viterbi_least hw hlen (by rw [h]; omega)
  rw [h, shiftIn_append, shiftIn_append, shiftIn_cons, shiftIn_nil, shiftIn_cons, shiftIn_nil, encStep_true hpos] at hle
  omega

end

/-! ### Mask bit 0 (R155) -/

theorem popcount_eq_testBit_zero_add (v : Nat) :
    popcount v = (List.range 31).countP (fun i => v.testBit (i + 1)) + (v.testBit 0).toNat := by
  rw [popcount, List.range_succ_eq_map, List.countP_cons, List.countP_map]
  cases v.testBit 0 <;> rfl

/-- The newest bit changes bit 0 of the register alone. -/
theorem encStep_testBit_succ_eq (w reg i : Nat) (b c : Bool) :
    (encStep w reg b).testBit (i + 1) = (encStep w reg c).testBit (i + 1) := by
  by_cases hi : i + 1 < w
  · rw [encStep_testBit_succ hi, encStep_testBit_succ hi]
  · have habove (b : Bool) : (encStep w reg b).testBit (i + 1) = false :=
      Nat.testBit_lt_two_pow ((encStep_lt w reg b).trans_le (Nat.pow_le_pow_right two_pos (by omega)))
    rw [habove, habove]

/-- The newest bit enters an output through mask bit 0 alone. -/
theorem encOut_encStep {w : Nat} (hpos : 1 ≤ w) (reg tapMask : Nat) (b : Bool) :
    encOut (encStep w reg b) tapMask = xor (tapMask.testBit 0 && b) (encOut (encStep w reg false) tapMask) := by
  simp only [encOut, parity, popcount_eq_testBit_zero_add, Nat.testBit_and, encStep_testBit_zero hpos,
    encStep_testBit_succ_eq w reg _ b false, Bool.and_comm b, Bool.false_and]
  generalize (List.range 31).countP _ = n
  obtain hn | hn := Nat.mod_two_eq_zero_or_one n <;> cases tapMask.testBit 0 && b <;> simp [Nat.add_mod, hn]

/-- With bit 0 in some mask the code is injective: each group fixes the current bit given the earlier ones (R155). -/
theorem codeword_injective {w : Nat} {masks : List Nat} (hpos : 1 ≤ w) (hbit : ∃ m ∈ masks, m.testBit 0 = true)
    {bs cs : Bits} (hlen : bs.length = cs.length) {reg : Nat} (h : codeword w masks reg bs = codeword w masks reg cs) :
    bs = cs := by
  induction bs generalizing cs reg with
  | nil => exact (List.length_eq_zero_iff.mp hlen.symm).symm
  | cons b bs ih =>
    cases cs with
    | nil => cases hlen
    | cons c cs =>
      obtain ⟨hgroup, hrest⟩ := List.append_inj h (by simp)
      obtain ⟨m, hm, hm0⟩ := hbit
      have hout : encOut (encStep w reg b) m = encOut (encStep w reg c) m := List.map_inj_left.mp hgroup m hm
      obtain rfl : b = c := by
        rw [encOut_encStep hpos, encOut_encStep hpos _ _ c, hm0] at hout
        simpa using hout
      rw [ih (Nat.succ.inj hlen) hrest]

theorem codeword_snoc (w : Nat) (masks : List Nat) (reg : Nat) (bs : Bits) (b : Bool) :
    codeword w masks reg (bs ++ [b]) = codeword w masks reg bs ++ outGroup masks (encStep w (shiftIn w reg bs) b) := by
  simp [codeword_append, codeword]

/-- Without bit 0 in any mask the last bit reaches no output (R155). -/
theorem codeword_last_irrelevant {w : Nat} {masks : List Nat} (hpos : 1 ≤ w) (hbit : ∀ m ∈ masks, m.testBit 0 = false)
    (reg : Nat) (bs : Bits) (b c : Bool) :
    codeword w masks reg (bs ++ [b]) = codeword w masks reg (bs ++ [c]) := by
  have hgroup : outGroup masks (encStep w (shiftIn w reg bs) b) = outGroup masks (encStep w (shiftIn w reg bs) c) :=
    List.map_congr_left fun m hm => by
      rw [encOut_encStep hpos, encOut_encStep hpos _ _ c, hbit m hm, Bool.false_and, Bool.false_and]
  rw [codeword_snoc, codeword_snoc, hgroup]

/-- A codeword decodes to its message where some mask has bit 0 (R155): it is received at distance 0. -/
theorem viterbi_of_codeword {w : Nat} {masks : List Nat} {groups : List Bits} {B : Bits} (hpos : 1 ≤ w)
    (hbit : ∃ m ∈ masks, m.testBit 0 = true) (hw : ∀ g ∈ groups, g.length = masks.length)
    (hlen : groups.length = B.length) (hflat : groups.flatten = codeword w masks 0 B) :
    viterbi w masks groups = B := by
  have hVlen : (viterbi w masks groups).length = B.length := (viterbi_length ..).trans hlen
  have hnear := viterbi_distance_le (w := w) hw hlen.symm
  rw [hflat, hammingDistance_self, Nat.le_zero] at hnear
  exact codeword_injective hpos hbit hVlen (hammingDistance_eq_zero (by simp [hVlen]) hnear)

/-- Where no mask has bit 0 the last decoded bit is 0, whatever was received (R155): both last bits are equally near. -/
theorem viterbi_getLast?_eq_false {w : Nat} {masks : List Nat} {groups : List Bits} (hpos : 1 ≤ w)
    (hbit : ∀ m ∈ masks, m.testBit 0 = false) (hw : ∀ g ∈ groups, g.length = masks.length) (hne : groups ≠ []) :
    (viterbi w masks groups).getLast? = some false := by
  obtain hV | ⟨bs, b, hV⟩ := List.eq_nil_or_concat' (viterbi w masks groups)
  · have := viterbi_length w masks groups
    exact absurd (List.length_eq_zero_iff.mp (by rw [← this, hV]; rfl)) hne
  · cases b with
    | false => rw [hV, List.getLast?_concat]
    | true =>
      have hlt := viterbi_last_true hpos hw hV
      rw [codeword_last_irrelevant hpos hbit 0 bs true false] at hlt
      exact absurd hlt (lt_irrefl _)

theorem mem_tapMasks_iff {s : State} (hinv : s.Inv) (hc : s.cfgValid = true) {m : Nat} :
    m ∈ tapMasks s ↔ ∃ j < s.cfgN.toNat, (s.polyMask.getD j 0#32).toNat = m := by
  rw [List.mem_iff_getElem?]
  constructor
  · rintro ⟨j, hj⟩
    have hlt : j < s.cfgN.toNat := tapMasks_length_of_inv hinv hc ▸ (List.getElem?_eq_some_iff.mp hj).1
    exact ⟨j, hlt, Option.some.inj ((tapMasks_getElem?_of_inv hinv hc hlt).symm.trans hj)⟩
  · rintro ⟨j, hj, rfl⟩
    exact ⟨j, tapMasks_getElem?_of_inv hinv hc hj⟩

/-! ### K = 3 with the masks 7 and 5 (R156) -/

/-- Under the two register bits of K = 3 the masks 7 and 5 give the XOR of the last two bits, and the last bit. -/
theorem outGroup_seven_five (reg : Nat) (b : Bool) :
    outGroup [7, 5] (encStep 2 reg b) = [xor b (reg.testBit 0), b] := by
  have hout (tapMask : Nat) : encOut (encStep 2 reg b) tapMask =
      xor (tapMask.testBit 0 && b) (tapMask.testBit 1 && reg.testBit 0) := by
    rw [encOut_eq_xorAll (by decide) (encStep_lt 2 reg b)]
    simp [-Nat.testBit_zero, List.range_succ, xorAll, encStep_testBit_zero, encStep_testBit_succ]
  have h7 : (7 : Nat).testBit 0 = true ∧ (7 : Nat).testBit 1 = true := by decide
  have h5 : (5 : Nat).testBit 0 = true ∧ (5 : Nat).testBit 1 = false := by decide
  simp [-Nat.testBit_zero, outGroup, hout, h7, h5]

theorem hammingDistance_outGroup_of_ne {reg : Nat} {b c : Bool} (h : b ≠ c) :
    hammingDistance (outGroup [7, 5] (encStep 2 reg b)) (outGroup [7, 5] (encStep 2 reg c)) = 2 := by
  rw [outGroup_seven_five, outGroup_seven_five, Bool.eq_not_of_ne h]
  cases c <;> cases reg.testBit 0 <;> rfl

/-- Where two registers differ in the last bit, their next groups differ in some position. -/
theorem hammingDistance_next_outGroup_pos {reg : Nat} {b c : Bool} (h : b ≠ c) (b' c' : Bool) :
    1 ≤ hammingDistance (outGroup [7, 5] (encStep 2 (encStep 2 reg b) b'))
      (outGroup [7, 5] (encStep 2 (encStep 2 reg c) c')) := by
  rw [outGroup_seven_five, outGroup_seven_five, encStep_testBit_zero two_pos, encStep_testBit_zero two_pos,
    Bool.eq_not_of_ne h]
  cases c <;> cases b' <;> cases c' <;> decide

/-- A group with one bit flipped is as near to the group of the other bit. -/
theorem hammingDistance_outGroup_flipAt {k : Nat} (hk : k < 2) (reg : Nat) (b c : Bool) :
    hammingDistance (outGroup [7, 5] (encStep 2 reg b)) (flipAt (outGroup [7, 5] (encStep 2 reg c)) k) = 1 := by
  rw [outGroup_seven_five, outGroup_seven_five]
  generalize reg.testBit 0 = r
  revert b c r
  interval_cases k <;> decide

/-- Sequences that differ before their last bits have codewords at distance 3 or more: the group of the first difference
differs in both bits, and the next group in one. -/
theorem dropLast_eq_of_distance_le {bs cs : Bits} (hlen : bs.length = cs.length) {reg : Nat}
    (h : hammingDistance (codeword 2 [7, 5] reg bs) (codeword 2 [7, 5] reg cs) ≤ 2) : bs.dropLast = cs.dropLast := by
  induction bs generalizing cs reg with
  | nil => rw [List.length_eq_zero_iff.mp hlen.symm]
  | cons b bs ih =>
    cases cs with
    | nil => cases hlen
    | cons c cs =>
      replace hlen := Nat.succ.inj hlen
      rw [codeword, codeword, hammingDistance_append (by simp)] at h
      cases bs with
      | nil => rw [List.length_eq_zero_iff.mp hlen.symm]; rfl
      | cons b' bs =>
        cases cs with
        | nil => cases hlen
        | cons c' cs =>
          by_cases hbc : b = c
          · subst hbc
            rw [List.dropLast_cons_cons, List.dropLast_cons_cons, ih hlen ((Nat.le_add_left ..).trans h)]
          · rw [codeword, codeword, hammingDistance_append (by simp), hammingDistance_outGroup_of_ne hbc] at h
            have := hammingDistance_next_outGroup_pos (reg := reg) hbc b' c'
            omega

/-- A flip before the last group adds to what the last bits differ in. -/
theorem hammingDistance_snoc_flip_before {bs : Bits} {p : Nat} (hp : p < 2 * bs.length) (reg : Nat) (x y : Bool) :
    hammingDistance (codeword 2 [7, 5] reg (bs ++ [y])) (flipAt (codeword 2 [7, 5] reg (bs ++ [x])) p) =
      1 + hammingDistance (outGroup [7, 5] (encStep 2 (shiftIn 2 reg bs) y))
        (outGroup [7, 5] (encStep 2 (shiftIn 2 reg bs) x)) := by
  have hp : p < (codeword 2 [7, 5] reg bs).length := by simpa [Nat.mul_comm] using hp
  rw [codeword_snoc, codeword_snoc, flipAt_append_of_lt hp, hammingDistance_append (by simp [flipAt]),
    hammingDistance_flipAt hp]

/-- A flip in the last group hides the last bit. -/
theorem hammingDistance_snoc_flip_last {k : Nat} (hk : k < 2) (reg : Nat) (bs : Bits) (x y : Bool) :
    hammingDistance (codeword 2 [7, 5] reg (bs ++ [y]))
      (flipAt (codeword 2 [7, 5] reg (bs ++ [x])) (2 * bs.length + k)) = 1 := by
  have hlen : 2 * bs.length = (codeword 2 [7, 5] reg bs).length := by simp [Nat.mul_comm]
  rw [codeword_snoc, codeword_snoc, hlen, flipAt_append_length_add, hammingDistance_append rfl, hammingDistance_self,
    hammingDistance_outGroup_flipAt hk]

/-- After one flip the decoded sequence agrees with the message but in the last bit (R156): both codewords are within 1
of what was received. -/
theorem viterbi_dropLast_of_flip {groups : List Bits} {B : Bits} {p : Nat} (hw : ∀ g ∈ groups, g.length = 2)
    (hlen : groups.length = B.length) (hp : p < 2 * B.length)
    (hflat : groups.flatten = flipAt (codeword 2 [7, 5] 0 B) p) :
    (viterbi 2 [7, 5] groups).dropLast = B.dropLast := by
  have hVlen : (viterbi 2 [7, 5] groups).length = B.length := by rw [viterbi_length, hlen]
  have hnear := viterbi_distance_le (w := 2) (masks := [7, 5]) hw hlen.symm
  have htriangle := hammingDistance_triangle (a := codeword 2 [7, 5] 0 (viterbi 2 [7, 5] groups))
    (b := codeword 2 [7, 5] 0 B) (r := groups.flatten) (by simp [hVlen]) (by simp [hflat, flipAt])
  have hone : hammingDistance (codeword 2 [7, 5] 0 B) groups.flatten = 1 := by
    rw [hflat, hammingDistance_flipAt (by simpa [Nat.mul_comm] using hp)]
  exact dropLast_eq_of_distance_le hVlen (htriangle.trans (by omega))

/-- The last bit is decided by the distance where the flip lies before the last group, and by the final state where it
lies in it (R156). -/
theorem viterbi_of_flip {groups : List Bits} {B : Bits} {p : Nat} (hw : ∀ g ∈ groups, g.length = 2)
    (hlen : groups.length = B.length) (hp : p < 2 * B.length)
    (hflat : groups.flatten = flipAt (codeword 2 [7, 5] 0 B) p) :
    viterbi 2 [7, 5] groups =
      if 2 * B.length - 2 ≤ p ∧ B.getLast? = some true then B.dropLast ++ [false] else B := by
  have hprefix := viterbi_dropLast_of_flip hw hlen hp hflat
  have hVlen : (viterbi 2 [7, 5] groups).length = B.length := by rw [viterbi_length, hlen]
  obtain rfl | ⟨bs, x, rfl⟩ := List.eq_nil_or_concat' B
  · simp at hp
  obtain hV | ⟨bs', y, hV⟩ := List.eq_nil_or_concat' (viterbi 2 [7, 5] groups)
  · simp [hV] at hVlen
  obtain rfl : bs' = bs := by simpa [hV] using hprefix
  have hpos : 2 * (bs' ++ [x]).length - 2 = 2 * bs'.length := by simp [Nat.mul_add]
  simp only [hpos, List.getLast?_concat, List.dropLast_concat, Option.some.injEq]
  rcases Nat.lt_or_ge p (2 * bs'.length) with hbefore | hin
  · have hnear := viterbi_distance_le (w := 2) (masks := [7, 5]) hw hlen.symm
    rw [hV, hflat, hammingDistance_snoc_flip_before hbefore, hammingDistance_snoc_flip_before hbefore,
      hammingDistance_self] at hnear
    have hyx : y = x := by
      by_contra hne
      rw [hammingDistance_outGroup_of_ne hne] at hnear
      omega
    rw [if_neg (by omega), hV, hyx]
  · obtain ⟨k, rfl⟩ := Nat.exists_eq_add_of_le hin
    have hk : k < 2 := by simp at hp; omega
    have hy : y = false := by
      by_contra htrue
      rw [Bool.not_eq_false] at htrue
      have hlt := viterbi_last_true (masks := [7, 5]) (by decide) hw (htrue ▸ hV)
      rw [hflat, hammingDistance_snoc_flip_last hk, hammingDistance_snoc_flip_last hk] at hlt
      exact lt_irrefl 1 hlt
    rw [hV, hy]
    cases x <;> simp

end Sys2Proof.Machine
end

section
/-! PROOFS. The statements about the decoder (42_viterbi_decoder.md), from the rules above. -/

namespace Sys2Proof.Machine

open Sys2Proof.Claims

/-- Settles O36: by the two arrivals at a destination, the lower predecessor's first. -/
theorem acsPerDestination : Obligations.AcsPerDestination := by
  unfold Obligations.AcsPerDestination
  refine ⟨fun w s b hw => encStep_testBit_zero hw s b, fun w s b d hw hs hd => ?_, fun w masks rx pm d hw _ hd => ?_⟩
  all_goals obtain ⟨v, rfl⟩ := Nat.exists_eq_add_of_le' hw
  · exact encStep_eq_iff hs hd
  · rw [acs_getD_arrivals hd, Nat.add_sub_cancel]
    simp only [arrival]
    cases pm.getD (d >>> 1) none with
    | none => cases pm.getD (d >>> 1 ||| 2 ^ v) none <;> rfl
    | some m0 =>
      cases pm.getD (d >>> 1 ||| 2 ^ v) none with
      | none => rfl
      | some m1 =>
        by_cases hle : m0 ≤ m1
        · simp [selectAll, select, hle]
        · simp [selectAll, select, hle]

/-- Settles O37: `reached_trellisOf_iff`, by induction on the steps. -/
theorem reachableTrellisStates : Obligations.ReachableTrellisStates :=
  fun _ _ _ _ _ => reached_trellisOf_iff

/-- Settles O38: a metric is a distance of sequences of `T * N` bits. -/
theorem metricsNeverOverflow : Obligations.MetricsNeverOverflow := by
  unfold Obligations.MetricsNeverOverflow
  intro s T d m hinv hc hl hT hm
  have hwidth : ∀ g ∈ (receivedGroups s).take T, g.length = (tapMasks s).length := fun g hg => by
    rw [length_of_mem_receivedGroups (List.mem_of_mem_take hg), tapMasks_length_of_inv hinv hc]
  have hlen : ((receivedGroups s).take T).length = T := by simpa [receivedGroups] using hT
  have hle := trellisOf_metric_le hwidth hm
  rw [hlen, tapMasks_length_of_inv hinv hc] at hle
  have hilen : T * s.cfgN.toNat ≤ s.ilen.toNat :=
    (Nat.mul_le_mul_right _ hT).trans (Nat.div_mul_le_self ..)
  have := hinv.legal.mw_wide
  exact ⟨hle, by omega⟩

/-- Settles O39: `finalState_best`, and at the start only state 0 has a metric. -/
theorem finalStateIsTheLeastBest : Obligations.FinalStateIsTheLeastBest := by
  unfold Obligations.FinalStateIsTheLeastBest
  refine ⟨fun _ _ _ => finalState_best, fun w => ?_⟩
  exact reached_startMetrics_iff.mp (reached_finalState w [] [])

/-- Settles O40: the final state is reached, and the walk from a reached state stays on reached states. -/
theorem tracebackIsDefinedAndEndsAtZero : Obligations.TracebackIsDefinedAndEndsAtZero :=
  fun w masks groups => ⟨backWalk_of_reached (reached_finalState w masks groups), viterbi_length w masks groups⟩

/-- Settles O42: the message's codeword is received at distance 0; mask bit 0 decides whether it is the only one. -/
theorem roundTrip : Obligations.RoundTrip := by
  unfold Obligations.RoundTrip
  intro se te sd hse hsd hcd hreg henc hte hK hN hM hl hin
  obtain ⟨hce, -, rfl⟩ := exec_encode_success henc hte
  have hpos : 1 ≤ se.cfgK.toNat - 1 := Nat.le_sub_one_of_lt (hse.configured hce).k_lo
  have hilen : sd.ilen.toNat = se.ilen.toNat * sd.cfgN.toNat := by
    rw [hN, ← State.afterEncode_length hse hce, ← hin, inputBits_length]
  have hm : sd.ilen.toNat % sd.cfgN.toNat = 0 := by rw [hilen, Nat.mul_mod_left]
  have hmasks : tapMasks sd = tapMasks se := by rw [tapMasks, polyCount, hN, hM, tapMasks, polyCount]
  have hwidth : ∀ g ∈ receivedGroups sd, g.length = (tapMasks se).length := fun g hg => by
    rw [length_of_mem_receivedGroups hg, hN, tapMasks_length_of_inv hse hce]
  have hlen : (receivedGroups sd).length = se.ilen.toNat := by
    rw [receivedGroups, rxGroups_length, hilen, Nat.mul_div_cancel _ (hsd.configured hcd).n_lo]
  have hflat : (receivedGroups sd).flatten = codeword (se.cfgK.toNat - 1) (tapMasks se) 0 (inputBits se) := by
    rw [receivedGroups_flatten hm, hin, State.afterEncode_obuf, hreg, regWidth]
    rfl
  refine ⟨_, execDecode_success hcd hl hm, rfl, fun hbit => ?_, fun hbit hne => ?_⟩ <;>
    rw [State.succeed_obuf, State.output_obuf, hK, hmasks]
  · obtain ⟨j, hj, hbit⟩ := hbit
    refine viterbi_of_codeword hpos ⟨_, (mem_tapMasks_iff hse hce).mpr ⟨j, hj, rfl⟩, ?_⟩ hwidth (by simp [hlen]) hflat
    rwa [BitVec.testBit_toNat]
  · refine viterbi_getLast?_eq_false hpos (fun m hm => ?_) hwidth fun hnil => ?_
    · obtain ⟨j, hj, rfl⟩ := (mem_tapMasks_iff hse hce).mp hm
      rw [BitVec.testBit_toNat]
      exact hbit j hj
    · rw [hnil, List.length_nil] at hlen
      omega

/-- Settles O43: `viterbi_of_flip`. -/
theorem singleFlipIsCorrected : Obligations.SingleFlipIsCorrected := by
  unfold Obligations.SingleFlipIsCorrected
  intro s B p hc hK hN hM hl hp hin
  have hilen : s.ilen.toNat = 2 * B.length := by
    rw [← inputBits_length, hin]
    simp [flipAt, Nat.mul_comm]
  have hn : s.cfgN.toNat = 2 := by rw [hN]; rfl
  have hm : s.ilen.toNat % s.cfgN.toNat = 0 := by rw [hilen, hn, Nat.mul_mod_right]
  have hmasks : tapMasks s = [7, 5] := by rw [tapMasks, polyCount, hn, hM]; rfl
  have hwidth : ∀ g ∈ receivedGroups s, g.length = 2 := fun g hg => hn ▸ length_of_mem_receivedGroups hg
  have hlen : (receivedGroups s).length = B.length := by
    rw [receivedGroups, rxGroups_length, hilen, hn, Nat.mul_div_cancel_left _ two_pos]
  refine ⟨_, execDecode_success hc hl hm, rfl, ?_⟩
  rw [State.succeed_obuf, State.output_obuf, hK, hmasks]
  exact viterbi_of_flip hwidth hlen hp ((receivedGroups_flatten hm).trans hin)

end Sys2Proof.Machine
end

section
/-! PROOFS. The interleaver: the position map (R170, R173) permutes the positions off the multiples of 7, and of the writes
of a scatter that meet in one position the last one stays (R172). -/

namespace Sys2Proof.Machine

open Sys2Proof.Claims

/-! ### The position map (R170, R173) -/

theorem newPosition_lt {len : Nat} (hlen : 0 < len) (i : Nat) : newPosition i len < len := Nat.mod_lt _ hlen

theorem coprime_seven_iff {len : Nat} : Nat.Coprime len 7 ↔ len % 7 ≠ 0 := by
  rw [Nat.coprime_comm, Nat.Prime.coprime_iff_not_dvd (by decide), Nat.dvd_iff_mod_eq_zero]

theorem newPosition_injective {len i j : Nat} (h7 : len % 7 ≠ 0) (hi : i < len) (hj : j < len)
    (h : newPosition i len = newPosition j len) : i = j := by
  have hmul : i * 7 ≡ j * 7 [MOD len] := Nat.ModEq.add_right_cancel' 5 h
  exact (hmul.cancel_right_of_coprime (coprime_seven_iff.mpr h7)).eq_of_lt_of_lt hi hj

theorem newPosition_ne_of_lt {len i j : Nat} (h7 : len % 7 ≠ 0) (hlt : i < j) (hj : j < len) :
    newPosition j len ≠ newPosition i len :=
  fun hmeet => hlt.ne' (newPosition_injective h7 hj (hlt.trans hj) hmeet)

/-- At a positive multiple of 7 the positions of 0 and of `len / 7` are the same. -/
theorem newPosition_injective_iff {len : Nat} (hlen : 0 < len) :
    (∀ i j, i < len → j < len → newPosition i len = newPosition j len → i = j) ↔ len % 7 ≠ 0 := by
  refine ⟨fun hinj h7 => ?_, fun h7 i j => newPosition_injective h7⟩
  have hmeet : newPosition 0 len = newPosition (len / 7) len := by
    rw [newPosition, newPosition, Nat.div_mul_cancel (Nat.dvd_of_mod_eq_zero h7), Nat.add_mod_left, Nat.zero_mul,
      Nat.zero_add]
  have := hinj 0 (len / 7) hlen (by omega) hmeet
  omega

/-- Off the multiples of 7 the positions, in the order of the input, are all the positions. -/
theorem map_newPosition_range_perm {len : Nat} (h7 : len % 7 ≠ 0) :
    ((List.range len).map (newPosition · len)).Perm (List.range len) := by
  have hnodup : ((List.range len).map (newPosition · len)).Nodup :=
    List.Nodup.map_on (fun _ hi _ hj => newPosition_injective h7 (List.mem_range.mp hi) (List.mem_range.mp hj))
      List.nodup_range
  have hsub : (List.range len).map (newPosition · len) ⊆ List.range len := fun p hp => by
    obtain ⟨i, -, rfl⟩ := List.mem_map.mp hp
    exact List.mem_range.mpr (newPosition_lt (by omega) i)
  exact (hnodup.subperm hsub).perm_of_length_le (by simp)

theorem exists_newPosition_eq {len p : Nat} (h7 : len % 7 ≠ 0) (hp : p < len) :
    ∃ i, i < len ∧ newPosition i len = p := by
  have hmem := (map_newPosition_range_perm h7).mem_iff.mpr (List.mem_range.mpr hp)
  simpa using hmem

/-- The inverse of the map (R173): an inverse of 7 undoes its factor. -/
theorem newPosition_inverse {len u i : Nat} (hu : 7 * u % len = 1 % len) (hi : i < len) :
    (((newPosition i len : Int) - 5) * (u : Int)) % (len : Int) = (i : Int) := by
  have hu : 7 * (u : Int) ≡ 1 [ZMOD len] := by exact_mod_cast Int.natCast_modEq_iff.mpr hu
  have hp : (newPosition i len : Int) ≡ i * 7 + 5 [ZMOD len] := by
    exact_mod_cast Int.natCast_modEq_iff.mpr (Nat.mod_modEq (i * 7 + 5) len)
  have hinv : ((newPosition i len : Int) - 5) * u ≡ i [ZMOD len] := by
    calc ((newPosition i len : Int) - 5) * u ≡ (i * 7 + 5 - 5) * u [ZMOD len] := (hp.sub_right 5).mul_right _
      _ = i * (7 * u) := by ring
      _ ≡ i * 1 [ZMOD len] := hu.mul_left _
      _ = i := mul_one _
  exact Eq.trans hinv (Int.emod_eq_of_lt (by omega) (by omega))

/-! ### The scatter (R171, R172) -/

/-- The writes of `value i` to `place i`, for the indexes of a list in their order. -/
def scatter (place : Nat → Nat) (value : Nat → Bool) (indexes : List Nat) (out : Bits) : Bits :=
  indexes.foldl (fun out i => out.set (place i) (value i)) out

theorem interleave_eq_scatter (bits : Bits) :
    interleave bits = scatter (newPosition · bits.length) (bits.getD · false) (List.range bits.length)
      (List.replicate bits.length false) := rfl

section

variable {place : Nat → Nat} {value : Nat → Bool} {indexes : List Nat}

@[simp] theorem scatter_length (out : Bits) : (scatter place value indexes out).length = out.length := by
  induction indexes generalizing out with
  | nil => rfl
  | cons i indexes ih => exact (ih _).trans List.length_set

/-- A position that no write goes to keeps its bit. -/
theorem scatter_getElem?_of_not_hit {p : Nat} (h : ∀ i ∈ indexes, place i ≠ p) (out : Bits) :
    (scatter place value indexes out)[p]? = out[p]? := by
  induction indexes generalizing out with
  | nil => rfl
  | cons i indexes ih =>
    obtain ⟨hi, hrest⟩ := List.forall_mem_cons.mp h
    exact (ih hrest _).trans (List.getElem?_set_ne hi)

/-- The write after which none goes to the same position stays. -/
theorem scatter_append_getElem?_of_last {i : Nat} {before after : List Nat} {out : Bits} (hi : place i < out.length)
    (hlast : ∀ j ∈ after, place j ≠ place i) :
    (scatter place value (before ++ i :: after) out)[place i]? = some (value i) := by
  have hcut : scatter place value (before ++ i :: after) out =
      scatter place value after ((scatter place value before out).set (place i) (value i)) := by
    simp [scatter]
  rw [hcut, scatter_getElem?_of_not_hit hlast, List.getElem?_set_self (by simpa using hi)]

/-- With the writes in increasing order, that of the largest index stays. -/
theorem scatter_range_getElem?_of_last {n i : Nat} {out : Bits} (hi : i < n) (hplace : place i < out.length)
    (hlast : ∀ j, i < j → j < n → place j ≠ place i) :
    (scatter place value (List.range n) out)[place i]? = some (value i) := by
  obtain ⟨before, after, hcut⟩ := List.append_of_mem (List.mem_range.mpr hi)
  have hsorted := List.pairwise_lt_range (n := n)
  rw [hcut, List.pairwise_append, List.pairwise_cons] at hsorted
  obtain ⟨-, ⟨hafter, -⟩, -⟩ := hsorted
  rw [hcut]
  exact scatter_append_getElem?_of_last hplace fun j hj =>
    hlast j (hafter j hj) (List.mem_range.mp (by simp [hcut, hj]))

end

/-! ### The interleaved sequence -/

section

variable {bits : Bits}

/-- A position holds the bit of the largest index that maps to it (R172). -/
theorem interleave_getElem?_of_last {i : Nat} (hi : i < bits.length)
    (hlast : ∀ j, i < j → j < bits.length → newPosition j bits.length ≠ newPosition i bits.length) :
    (interleave bits)[newPosition i bits.length]? = bits[i]? := by
  have hbit : bits[i]? = some (bits.getD i false) := by simp [hi]
  rw [interleave_eq_scatter, hbit]
  refine scatter_range_getElem?_of_last (place := (newPosition · bits.length)) hi ?_ hlast
  simpa using newPosition_lt (by omega) i

/-- A position that no index maps to holds 0 (R172). -/
theorem interleave_getElem?_of_not_hit {p : Nat} (hp : p < bits.length)
    (h : ∀ i, i < bits.length → newPosition i bits.length ≠ p) : (interleave bits)[p]? = some false := by
  rw [interleave_eq_scatter, scatter_getElem?_of_not_hit fun i hi => h i (List.mem_range.mp hi)]
  simp [hp]

/-- Off the multiples of 7 no two indexes meet in a position (R173). -/
theorem interleave_getElem?_newPosition {i : Nat} (h7 : bits.length % 7 ≠ 0) (hi : i < bits.length) :
    (interleave bits)[newPosition i bits.length]? = bits[i]? :=
  interleave_getElem?_of_last hi fun _ => newPosition_ne_of_lt h7

/-- Read along the permuted positions, the output is the input (R173). -/
theorem interleave_perm (h7 : bits.length % 7 ≠ 0) : (interleave bits).Perm bits := by
  have hread :
      (List.range bits.length).map (((interleave bits).getD · false) ∘ (newPosition · bits.length)) = bits := by
    refine (List.map_congr_left fun i hi => ?_).trans (map_range_getD bits)
    simp [interleave_getElem?_newPosition h7 (List.mem_range.mp hi)]
  have hall : (List.range bits.length).map ((interleave bits).getD · false) = interleave bits := by
    rw [← interleave_length bits, map_range_getD]
  have hperm := (map_newPosition_range_perm h7).map ((interleave bits).getD · false)
  rw [List.map_map, hread, hall] at hperm
  exact hperm.symm

end

/-! ### INTLV and TURBO (R171, R172, R184) -/

section

variable {s : State}

theorem interleaverFaults_iff :
    interleaverFaults s = true ↔ s.ilen.toNat % 7 = 0 ∧ s.ilen.toNat ≠ 0 ∧ s.params.ilCollide = .fault := by
  simp [interleaverFaults, and_assoc]

theorem exec_intlv_of_fault (hf : interleaverFaults s = true) : exec .intlv s = .next (completed s 3#3 s.ilen) := by
  obtain ⟨-, h⟩ | ⟨-, hok, -⟩ := execIntlv_cases s
  · exact h
  · simp [hf] at hok

theorem exec_turbo_of_fault (hc : s.cfgValid = true) (hf : interleaverFaults s = true) :
    exec .turbo s = .next (completed s 3#3 s.ilen) := by
  obtain ⟨hc', -⟩ | ⟨-, -, h⟩ | ⟨-, -, hok, -⟩ := execTurbo_cases s
  · simp [hc] at hc'
  · exact h
  · simp [hf] at hok

/-- The block after an INTLV that succeeds (R171). -/
def State.afterIntlv (s : State) : State := (s.output (interleave (inputBits s)) s.ilen.toNat).succeed

theorem exec_intlv (hl : s.ilen.toNat ≤ s.params.lmax) (hok : interleaverFaults s = false) :
    exec .intlv s = .next s.afterIntlv := by
  obtain ⟨h | h, -⟩ | ⟨-, -, h⟩ := execIntlv_cases s
  · omega
  · simp [hok] at h
  · exact h

@[simp] theorem State.afterIntlv_obuf (s : State) : s.afterIntlv.obuf = interleave (inputBits s) := rfl

/-- The output of a command that writes as many bits as it reads has ILEN as its OLEN. -/
theorem State.output_ilen_toNat (s : State) (bits : Bits) :
    s.output bits s.ilen.toNat = { s with obuf := bits, olen := s.ilen, obufEra := s.obufEra + 1 } := by
  rw [State.output, BitVec.ofNat_toNat, BitVec.setWidth_eq]

theorem State.afterIntlv_eq_completed (s : State) :
    s.afterIntlv = completed { s with
      obuf := s.afterIntlv.obuf, olen := s.ilen, obufEra := s.afterIntlv.obufEra } 0#3 0#32 :=
  congrArg State.succeed (s.output_ilen_toNat (interleave (inputBits s)))

theorem State.afterIntlv_length (s : State) : s.afterIntlv.obuf.length = s.ilen.toNat := by simp

theorem State.afterIntlv_getElem?_of_last {i : Nat} (hi : i < s.ilen.toNat)
    (hlast : ∀ j, i < j → j < s.ilen.toNat → newPosition j s.ilen.toNat ≠ newPosition i s.ilen.toNat) :
    s.afterIntlv.obuf[newPosition i s.ilen.toNat]? = some (ibufBit s i) := by
  have hget := interleave_getElem?_of_last (bits := inputBits s) (i := i)
  rw [inputBits_length, inputBits_getElem? s hi] at hget
  rw [State.afterIntlv_obuf]
  exact hget hi hlast

theorem State.afterIntlv_getElem?_of_not_hit {p : Nat} (hp : p < s.ilen.toNat)
    (h : ∀ i, i < s.ilen.toNat → newPosition i s.ilen.toNat ≠ p) : s.afterIntlv.obuf[p]? = some false :=
  interleave_getElem?_of_not_hit (by simpa using hp) (by simpa using h)

end

end Sys2Proof.Machine
end

section
/-! PROOFS. The statements about the interleaver (43_interleaver.md), from the rules above. -/

namespace Sys2Proof.Machine

/-- Settles O44: `newPosition_injective_iff`; off the multiples of 7 the positions are permuted, and the
bits with them. -/
theorem positionMapIsABijectionOffMultiplesOfSeven : Obligations.PositionMapIsABijectionOffMultiplesOfSeven := by
  unfold Obligations.PositionMapIsABijectionOffMultiplesOfSeven
  intro len hlen
  refine ⟨newPosition_injective_iff hlen, newPosition_lt hlen, fun h7 =>
    ⟨fun _ => exists_newPosition_eq h7, fun bits hbits => ?_, fun _ _ => newPosition_inverse⟩⟩
  have hperm := interleave_perm (hbits ▸ h7)
  exact ⟨hperm, hperm.count_eq true⟩

/-- Settles O45: every index is the last one that maps to its position, since no other does. -/
theorem intlvScattersTheInput : Obligations.IntlvScattersTheInput := by
  unfold Obligations.IntlvScattersTheInput
  intro s hl hlen
  have hok : interleaverFaults s = false := by
    rw [← Bool.not_eq_true, interleaverFaults_iff]
    rintro ⟨h7, hne, -⟩
    exact hlen.elim (absurd h7) (absurd · hne)
  refine ⟨s.afterIntlv, exec_intlv hl hok, s.afterIntlv_eq_completed, s.afterIntlv_length, fun i hi => ?_⟩
  have h7 : s.ilen.toNat % 7 ≠ 0 := by omega
  exact State.afterIntlv_getElem?_of_last hi fun _ => newPosition_ne_of_lt h7

/-- Settles O46: the length is one that FAULT refuses; otherwise the last write to a position stays on the zero fill. -/
theorem intlvAtMultiplesOfSeven : Obligations.IntlvAtMultiplesOfSeven := by
  unfold Obligations.IntlvAtMultiplesOfSeven
  intro s hl h7 hne
  refine ⟨fun hfault => ?_, fun hfill => ?_⟩
  · have hf := interleaverFaults_iff.mpr ⟨h7, hne, hfault⟩
    exact ⟨exec_intlv_of_fault hf, fun hc => exec_turbo_of_fault hc hf⟩
  · have hok : interleaverFaults s = false := by simp [interleaverFaults, hfill]
    exact ⟨s.afterIntlv, exec_intlv hl hok, s.afterIntlv_eq_completed, s.afterIntlv_length,
      fun _ => State.afterIntlv_getElem?_of_last, fun _ => State.afterIntlv_getElem?_of_not_hit⟩

end Sys2Proof.Machine
end

section
/-! PROOFS. The constituent encoders of TURBO in closed form (R181 to R183): a register of two bits that starts at 0 holds
the last two input bits, and a parity bit is their XOR under the two low mask bits. -/

namespace Sys2Proof.Machine

open Sys2Proof.Claims

/-! ### The register (R181, R182) -/

/-- TREG1 or TREG2 after the sequence that its encoder takes in from 0 (R181 to R183). -/
def turboReg (bits : Bits) : BitVec 2 := BitVec.ofNat 2 (shiftIn turboWidth 0 bits)

@[simp] theorem turboReg_nil : turboReg [] = 0#2 := rfl

theorem turboReg_getLsbD {i : Nat} (hi : i < turboWidth) (input : Nat → Bool) (q : Nat) :
    (turboReg ((List.range (q + 1)).map input)).getLsbD i = regBit input 0 q i := by
  have hi2 : i < 2 := hi
  rw [turboReg, BitVec.getLsbD_ofNat, decide_eq_true hi2, Bool.true_and, shiftIn_testBit hi]

theorem regBit_one_from_zero (input : Nat → Bool) (q : Nat) :
    regBit input 0 q 1 = (decide (0 < q) && input (q - 1)) := by
  cases q with
  | zero => rfl
  | succ q => simp [regBit]

/-- Bit 0 of the register is the last input bit. -/
theorem turboReg_getLsbD_zero {n : Nat} (hn : 1 ≤ n) (input : Nat → Bool) :
    (turboReg ((List.range n).map input)).getLsbD 0 = input (n - 1) := by
  obtain ⟨q, rfl⟩ := Nat.exists_eq_add_of_le' hn
  exact turboReg_getLsbD two_pos input q

/-- Bit 1 of the register is the last input bit but one. -/
theorem turboReg_getLsbD_one {n : Nat} (hn : 1 ≤ n) (input : Nat → Bool) :
    (turboReg ((List.range n).map input)).getLsbD 1 = (decide (2 ≤ n) && input (n - 2)) := by
  obtain ⟨q, rfl⟩ := Nat.exists_eq_add_of_le' hn
  rw [turboReg_getLsbD one_lt_two, regBit_one_from_zero]
  simp [Nat.succ_le_iff]

/-! ### A parity stream (R182, R183) -/

/-- An output bit of a register of two bits. -/
theorem encOut_turboWidth {reg : Nat} (hreg : reg < 2 ^ turboWidth) (tapMask : Nat) :
    encOut reg tapMask = xor (tapMask.testBit 0 && reg.testBit 0) (tapMask.testBit 1 && reg.testBit 1) := by
  have hrange : List.range turboWidth = [0, 1] := rfl
  rw [encOut_eq_xorAll (by decide) hreg, hrange]
  simp [xorAll]

/-- The parity bit of input bit `q` under mask `j`, at its position `q*N + j` in the stream. -/
theorem parityStream_getElem? {s : State} {n q j : Nat} (hinv : s.Inv) (hc : s.cfgValid = true) (hq : q < n)
    (hj : j < s.cfgN.toNat) (input : Nat → Bool) :
    (codeword turboWidth (tapMasks s) 0 ((List.range n).map input))[q * s.cfgN.toNat + j]? =
      some (turboParity s input q j) := by
  have htake : ((List.range n).map input).take (q + 1) = (List.range (q + 1)).map input := by
    rw [← List.map_take, List.take_range, Nat.min_eq_left hq]
  rw [← tapMasks_length_of_inv hinv hc, codeword_getElem? (by simpa using hq) (tapMasks_getElem?_of_inv hinv hc hj),
    htake, encOut_turboWidth (shiftIn_lt (by decide) _), shiftIn_testBit (w := turboWidth) two_pos,
    shiftIn_testBit (w := turboWidth) one_lt_two, regBit_one_from_zero, BitVec.testBit_toNat, BitVec.testBit_toNat]
  rfl

/-! ### The output (R184) -/

section

variable {masks : List Nat} {bits : Bits}

/-- The systematic part. -/
theorem take_turboBits : (turboBits masks bits).take bits.length = bits := by
  simp [turboBits]

/-- The first parity stream stands behind the systematic part. -/
theorem take_drop_turboBits :
    ((turboBits masks bits).drop bits.length).take (bits.length * masks.length) = codeword turboWidth masks 0 bits := by
  rw [turboBits, List.append_assoc, List.drop_left, List.take_left' (by simp)]

/-- The second parity stream stands behind the first. -/
theorem drop_turboBits : (turboBits masks bits).drop (bits.length + bits.length * masks.length) =
    codeword turboWidth masks 0 (interleave bits) := by
  rw [turboBits, List.drop_left' (by simp)]

end

end Sys2Proof.Machine
end

section
/-! PROOFS. What TURBO leaves (R184): its two registers, and the three parts of its output. -/

namespace Sys2Proof.Machine

open Sys2Proof.Claims

variable {s t : State}

theorem interleaverFaults_eq_false
    (h : s.ilen.toNat % 7 ≠ 0 ∨ s.ilen.toNat = 0 ∨ s.params.ilCollide = .zeroFillLastWins) :
    interleaverFaults s = false := by
  rw [← Bool.not_eq_true, interleaverFaults_iff]
  rintro ⟨h7, hne, hfault⟩
  simp [h7, hne, hfault] at h

/-- The block after a TURBO that succeeds (R184). -/
def State.afterTurbo (s : State) : State :=
  ({ s with
    treg1 := turboReg (inputBits s)
    treg2 := turboReg (interleave (inputBits s)) }.output
      (turboBits (tapMasks s) (inputBits s)) (s.ilen.toNat * (1 + 2 * polyCount s))).succeed

@[simp] theorem State.afterTurbo_obuf (s : State) :
    s.afterTurbo.obuf = turboBits (tapMasks s) (inputBits s) := rfl

@[simp] theorem State.afterTurbo_olen (s : State) :
    s.afterTurbo.olen = BitVec.ofNat 32 (s.ilen.toNat * (1 + 2 * polyCount s)) := rfl

@[simp] theorem State.afterTurbo_treg1 (s : State) : s.afterTurbo.treg1 = turboReg (inputBits s) := rfl

@[simp] theorem State.afterTurbo_treg2 (s : State) : s.afterTurbo.treg2 = turboReg (interleave (inputBits s)) := rfl

theorem exec_turbo (hc : s.cfgValid = true) (hl : s.ilen.toNat ≤ s.params.lmax) (hok : interleaverFaults s = false) :
    exec .turbo s = .next s.afterTurbo := by
  obtain ⟨h, -⟩ | ⟨-, h | h, -⟩ | ⟨-, -, -, h⟩ := execTurbo_cases s
  · simp [hc] at h
  · omega
  · simp [hok] at h
  · exact h

/-- A TURBO that ends without an error has passed its checks (R184). -/
theorem exec_turbo_success (h : exec .turbo s = .next t) (ht : t.err = 0#3) :
    s.cfgValid = true ∧ s.ilen.toNat ≤ s.params.lmax ∧ t = s.afterTurbo := by
  obtain ⟨kind, info, rfl, -⟩ | ⟨u, rfl, hu⟩ := exec_next h
  · exact absurd ht kind.code_ne_zero
  · cases hu with
    | turbo hc hl _ => exact ⟨hc, hl, rfl⟩

/-! ### Lengths (R185) -/

theorem State.afterTurbo_length (hinv : s.Inv) (hc : s.cfgValid = true) :
    s.afterTurbo.obuf.length = s.ilen.toNat * (1 + 2 * s.cfgN.toNat) := by
  rw [State.afterTurbo_obuf, turboBits_length, inputBits_length, tapMasks_length_of_inv hinv hc]

/-- The number of bits is at most OMAX, so that OLEN holds it. -/
theorem State.afterTurbo_olen_toNat (hinv : s.Inv) (hc : s.cfgValid = true) (hl : s.ilen.toNat ≤ s.params.lmax) :
    s.afterTurbo.olen.toNat = s.ilen.toNat * (1 + 2 * s.cfgN.toNat) := by
  have hn := (hinv.configured hc).n_hi
  have hfit : s.ilen.toNat * (1 + 2 * s.cfgN.toNat) ≤ s.params.omax := mul_le_omax hl (by omega)
  have hmax : s.params.omax ≤ 2097152 := hinv.legal.omax_hi
  rw [State.afterTurbo_olen, BitVec.toNat_ofNat, polyCount, Nat.mod_eq_of_lt (by omega)]

/-! ### The three parts of OBUF -/

/-- The systematic part is the input sequence. -/
theorem State.afterTurbo_systematic (s : State) : s.afterTurbo.obuf.take s.ilen.toNat = inputBits s := by
  simpa using take_turboBits (masks := tapMasks s) (bits := inputBits s)

/-- The first parity stream is the codeword of the input sequence. -/
theorem State.afterTurbo_parity1 (hinv : s.Inv) (hc : s.cfgValid = true) :
    (s.afterTurbo.obuf.drop s.ilen.toNat).take (s.ilen.toNat * s.cfgN.toNat) =
      codeword turboWidth (tapMasks s) 0 (inputBits s) := by
  simpa [tapMasks_length_of_inv hinv hc] using take_drop_turboBits (masks := tapMasks s) (bits := inputBits s)

/-- The second parity stream is the codeword of what INTLV writes. -/
theorem State.afterTurbo_parity2 (hinv : s.Inv) (hc : s.cfgValid = true) :
    s.afterTurbo.obuf.drop (s.ilen.toNat + s.ilen.toNat * s.cfgN.toNat) =
      codeword turboWidth (tapMasks s) 0 s.afterIntlv.obuf := by
  simpa [tapMasks_length_of_inv hinv hc] using drop_turboBits (masks := tapMasks s) (bits := inputBits s)

/-- What INTLV writes, as a sequence of its positions. -/
theorem State.afterIntlv_obuf_eq_map (s : State) :
    s.afterIntlv.obuf = (List.range s.ilen.toNat).map (fun i => s.afterIntlv.obuf.getD i false) := by
  rw [← s.afterIntlv_length, map_range_getD]

theorem State.afterTurbo_getElem?_systematic {i : Nat} (hi : i < s.ilen.toNat) :
    s.afterTurbo.obuf[i]? = some (ibufBit s i) := by
  rw [← inputBits_getElem? s hi, ← s.afterTurbo_systematic, List.getElem?_take_of_lt hi]

theorem State.afterTurbo_getElem?_parity1 {q j : Nat} (hinv : s.Inv) (hc : s.cfgValid = true) (hq : q < s.ilen.toNat)
    (hj : j < s.cfgN.toNat) :
    s.afterTurbo.obuf[s.ilen.toNat + q * s.cfgN.toNat + j]? = some (turboParity s (ibufBit s) q j) := by
  have hin := parityStream_getElem? hinv hc hq hj (ibufBit s)
  rw [← inputBits, ← State.afterTurbo_parity1 hinv hc] at hin
  rw [List.getElem?_take, Option.ite_none_right_eq_some, List.getElem?_drop, ← Nat.add_assoc] at hin
  exact hin.2

theorem State.afterTurbo_getElem?_parity2 {q j : Nat} (hinv : s.Inv) (hc : s.cfgValid = true) (hq : q < s.ilen.toNat)
    (hj : j < s.cfgN.toNat) :
    s.afterTurbo.obuf[s.ilen.toNat + s.ilen.toNat * s.cfgN.toNat + q * s.cfgN.toNat + j]? =
      some (turboParity s (fun i => s.afterIntlv.obuf.getD i false) q j) := by
  rw [← parityStream_getElem? hinv hc hq hj, ← s.afterIntlv_obuf_eq_map, ← State.afterTurbo_parity2 hinv hc,
    List.getElem?_drop, ← Nat.add_assoc]

/-! ### TREG1 and TREG2 -/

/-- With no input both registers keep the 0 they start from (R181). -/
theorem State.afterTurbo_tregs_of_empty (hzero : s.ilen.toNat = 0) :
    s.afterTurbo.treg1 = 0#2 ∧ s.afterTurbo.treg2 = 0#2 := by
  have hin : inputBits s = [] := by simp [inputBits, hzero]
  have hil : interleave [] = [] := rfl
  simp [hin, hil]

theorem State.afterTurbo_tregs (hpos : 1 ≤ s.ilen.toNat) :
    s.afterTurbo.treg1.getLsbD 0 = ibufBit s (s.ilen.toNat - 1) ∧
    s.afterTurbo.treg1.getLsbD 1 = (decide (2 ≤ s.ilen.toNat) && ibufBit s (s.ilen.toNat - 2)) ∧
    s.afterTurbo.treg2.getLsbD 0 = s.afterIntlv.obuf.getD (s.ilen.toNat - 1) false ∧
    s.afterTurbo.treg2.getLsbD 1 =
      (decide (2 ≤ s.ilen.toNat) && s.afterIntlv.obuf.getD (s.ilen.toNat - 2) false) := by
  have h2 : s.afterTurbo.treg2 =
      turboReg ((List.range s.ilen.toNat).map (fun i => s.afterIntlv.obuf.getD i false)) :=
    congrArg turboReg s.afterIntlv_obuf_eq_map
  rw [h2]
  exact ⟨turboReg_getLsbD_zero hpos _, turboReg_getLsbD_one hpos _, turboReg_getLsbD_zero hpos _,
    turboReg_getLsbD_one hpos _⟩

end Sys2Proof.Machine
end

section
/-! PROOFS. The statements about the turbo encoder (44_turbo_encoder.md), from the rules above. -/

namespace Sys2Proof.Machine

/-- Settles O47: the three parts of the output and the two registers, each by its closed form, where INTLV's output is the
sequence that the second encoder takes in. -/
theorem turboStreams : Obligations.TurboStreams := by
  unfold Obligations.TurboStreams
  intro s hinv hc hl hlen
  have hok := interleaverFaults_eq_false hlen
  exact ⟨s.afterIntlv, s.afterTurbo, exec_intlv hl hok, exec_turbo hc hl hok, rfl,
    State.afterTurbo_olen_toNat hinv hc hl, State.afterTurbo_length hinv hc,
    fun _ => State.afterTurbo_getElem?_systematic,
    fun _ _ => State.afterTurbo_getElem?_parity1 hinv hc,
    fun _ _ => State.afterTurbo_getElem?_parity2 hinv hc,
    State.afterTurbo_tregs_of_empty, State.afterTurbo_tregs⟩

/-- Settles O48: with CFG_K = 3 ENCODE's register has the width of TREG1, and from ENC_REG = 0 it writes the same
codeword. -/
theorem turboLaws : Obligations.TurboLaws := by
  unfold Obligations.TurboLaws
  intro s t hinv h ht
  obtain ⟨hc, hl, rfl⟩ := exec_turbo_success h ht
  refine ⟨State.afterTurbo_olen_toNat hinv hc hl, s.afterTurbo_systematic, fun hk => ?_⟩
  have hwidth : regWidth s = turboWidth := by rw [regWidth, hk]; rfl
  refine ⟨_, exec_encode (s := { s with encReg := 0#32 }) hc hl, rfl, ?_⟩
  rw [State.afterTurbo_parity1 hinv hc, ← hwidth]
  rfl

/-- Settles O49: what a TURBO that succeeds writes is a function of the input sequence, ILEN, CFG_N and POLY_MASK. -/
theorem turboDependsOnlyOnInputAndConfiguration : Obligations.TurboDependsOnlyOnInputAndConfiguration := by
  unfold Obligations.TurboDependsOnlyOnInputAndConfiguration
  intro s s' t t' hin hilen hN hM h ht h' ht'
  obtain ⟨-, -, rfl⟩ := exec_turbo_success h ht
  obtain ⟨-, -, rfl⟩ := exec_turbo_success h' ht'
  have hcount : polyCount s' = polyCount s := congrArg BitVec.toNat hN
  have hmasks : tapMasks s' = tapMasks s := by rw [tapMasks, hcount, hM, tapMasks]
  simp [hin, hilen, hcount, hmasks]

end Sys2Proof.Machine
end

section
/-! PROOFS. The completion code and ERR_INFO of each data command in the priority of its checks (R202 to R204), and ERR_INFO
of PARSE (R203). -/

namespace Sys2Proof.Machine

/-! ### The data commands -/

section

variable {s t : State}

theorem exec_encode_ending (h : exec .encode s = .next t) : (t.err, t.errInfo) =
    if s.cfgValid = false then (2#3, 3#32) else if s.params.lmax < s.ilen.toNat then (3#3, s.ilen)
    else (0#3, 0#32) := by
  obtain ⟨hc, he⟩ | ⟨hc, hl, he⟩ | ⟨hc, hl, he⟩ := execEncode_cases s <;> cases he.symm.trans h
  · simp [hc, ErrorKind.code]
  · simp [hc, hl, ErrorKind.code]
  · simp [hc, hl.not_gt]

theorem exec_decode_ending (h : exec .decode s = .next t) : (t.err, t.errInfo) =
    if s.cfgValid = false then (2#3, 3#32) else if s.params.lmax < s.ilen.toNat then (3#3, s.ilen)
    else if s.ilen.toNat % s.cfgN.toNat ≠ 0 then (3#3, s.ilen) else (0#3, 0#32) := by
  rw [← polyCount]
  obtain ⟨hc, he⟩ | ⟨hc, hl | hm, he⟩ | ⟨hc, hl, hm, he⟩ := execDecode_cases s <;> cases he.symm.trans h
  · simp [hc, ErrorKind.code]
  · simp [hc, hl, ErrorKind.code]
  · simp [hc, hm, ErrorKind.code]
  · simp [hc, hl.not_gt, hm]

theorem exec_intlv_ending (h : exec .intlv s = .next t) : (t.err, t.errInfo) =
    if s.params.lmax < s.ilen.toNat then (3#3, s.ilen)
    else if s.ilen.toNat % 7 = 0 ∧ s.ilen.toNat ≠ 0 ∧ s.params.ilCollide = .fault then (3#3, s.ilen)
    else (0#3, 0#32) := by
  simp only [← interleaverFaults_iff]
  obtain ⟨hl | hf, he⟩ | ⟨hl, hok, he⟩ := execIntlv_cases s <;> cases he.symm.trans h
  · simp [hl, ErrorKind.code]
  · simp [hf, ErrorKind.code]
  · simp [hl.not_gt, hok]

theorem exec_turbo_ending (h : exec .turbo s = .next t) : (t.err, t.errInfo) =
    if s.cfgValid = false then (2#3, 3#32) else if s.params.lmax < s.ilen.toNat then (3#3, s.ilen)
    else if s.ilen.toNat % 7 = 0 ∧ s.ilen.toNat ≠ 0 ∧ s.params.ilCollide = .fault then (3#3, s.ilen)
    else (0#3, 0#32) := by
  simp only [← interleaverFaults_iff]
  obtain ⟨hc, he⟩ | ⟨hc, hl | hf, he⟩ | ⟨hc, hl, hok, he⟩ := execTurbo_cases s <;> cases he.symm.trans h
  · simp [hc, ErrorKind.code]
  · simp [hc, hl, ErrorKind.code]
  · simp [hc, hf, ErrorKind.code]
  · simp [hc, hl.not_gt, hok]

end

/-! ### ERR_INFO of PARSE -/

/-- The index and the reason share no bit, so that their OR is their sum (R203). -/
theorem polyErrorInfo_bad_digit (idx : BitVec 8) :
    polyErrorInfo idx.toNat 1 = BitVec.ofNat 32 (idx.toNat + 0x10000) := by
  have hsum := Nat.two_pow_add_eq_or_of_lt (show idx.toNat < 2 ^ 16 by omega) 1
  rw [polyErrorInfo, Nat.lor_comm, Nat.shiftLeft_eq, Nat.mul_comm, ← hsum, Nat.add_comm]

end Sys2Proof.Machine
end

section
/-! PROOFS. The statements about the errors of all commands (60_exceptions.md), from the rules above. -/

namespace Sys2Proof.Machine

/-- Settles O19: an error is `State.raise`, which is `completed` with the code of its kind; a success has ERR = 0. -/
theorem errorsAreAllOrNothing : Obligations.ErrorsAreAllOrNothing := by
  unfold Obligations.ErrorsAreAllOrNothing
  intro i s t h herr
  obtain ⟨kind, info, rfl, -⟩ | ⟨u, rfl, -⟩ := exec_next h
  · rfl
  · exact absurd u.succeed_err herr

/-- Settles O20: the data commands by their endings, PARSE by its parser, CONFIG by its range checks. -/
theorem errorOfEachCommand : Obligations.ErrorOfEachCommand := by
  unfold Obligations.ErrorOfEachCommand
  refine ⟨fun s t => exec_encode_ending, fun s t => exec_decode_ending, fun s t => exec_intlv_ending,
    fun s t => exec_turbo_ending, fun s t h => ?_, fun idx s t hidx h => ⟨fun hbad => ?_, fun hgood => ?_⟩,
    fun k n s t h => ⟨fun hk => ?_, fun hk hn => ?_⟩⟩
  · cases h
    rfl
  · cases (exec_parse_of_bad_digit hidx (polyParse_eq_none.mpr hbad)).symm.trans h
    exact congrArg (Prod.mk 1#3) (polyErrorInfo_bad_digit idx)
  · cases (exec_parse_of_mask hidx (polyParse_eq_some.mpr ⟨hgood, rfl⟩)).symm.trans h
    rfl
  · cases (exec_config_of_bad_k hk).symm.trans h
    rfl
  · cases (exec_config_of_bad_n hk hn).symm.trans h
    rfl

end Sys2Proof.Machine
end

section
/-! PROOFS. What a turn can answer (R220, R230, R240, R243): the codes a command ends with and what no command writes, which
turns can be refused and for which reasons, and the accesses of a HOST that waits. -/

namespace Sys2Proof.Machine

/-! ### The end of a command (R201, R206) -/

/-- The codes of the errors that the block raises (R200, R201). -/
theorem ErrorKind.code_of_raised {kind : ErrorKind} (h : kind ≠ .unsupportedAlgorithm) :
    kind.code = 1#3 ∨ kind.code = 2#3 ∨ kind.code = 3#3 ∨ kind.code = 7#3 := by
  cases kind with
  | unsupportedAlgorithm => exact absurd rfl h
  | invalidPolynomial | invalidConfiguration | invalidInputLength | illegalCommand => decide

/-! ### What no command writes (R233) -/

section

variable {s t : State} {i : Instr}

/-- What every command leaves as it was: ILEN, IBUF with its unstored bits, POLY_RAW, the parameters and the HOST's side. -/
structure SameInputAndHost (s t : State) : Prop where
  ilen : t.ilen = s.ilen
  ibuf : t.ibuf = s.ibuf
  ibufEra : t.ibufEra = s.ibufEra
  polyRaw : t.polyRaw = s.polyRaw
  params : t.params = s.params
  hostWaits : t.hostWaits = s.hostWaits
  hostReads : t.hostReads = s.hostReads
  agenda : t.agenda = s.agenda

theorem SameInputAndHost.ibufByte (h : SameInputAndHost s t) (a : Nat) : ibufByte t a = ibufByte s a := by
  simp only [Machine.ibufByte, h.ibuf, h.ibufEra, h.params]

theorem SameInputAndHost.ibufBit (h : SameInputAndHost s t) (n : Nat) : ibufBit t n = ibufBit s n := by
  simp only [Machine.ibufBit, h.ibufByte]

theorem Effect.sameInputAndHost (h : Effect s i t) : SameInputAndHost s t := by
  cases h with
  | parse | config | encrst | encode | decode | intlv | turbo => exact ⟨rfl, rfl, rfl, rfl, rfl, rfl, rfl, rfl⟩

theorem exec_sameInputAndHost (h : exec i s = .next t) : SameInputAndHost s t := by
  obtain ⟨kind, info, rfl, -⟩ | ⟨u, rfl, hu⟩ := exec_next h
  · exact ⟨rfl, rfl, rfl, rfl, rfl, rfl, rfl, rfl⟩
  · exact { hu.sameInputAndHost with }

/-- What a command that is no data command leaves as it was: OLEN, and OBUF with its unspecified bits (R38, R67). -/
structure SameOutput (s t : State) : Prop where
  olen : t.olen = s.olen
  obuf : t.obuf = s.obuf
  obufEra : t.obufEra = s.obufEra

theorem Effect.sameOutput (hi : i = .encrst ∨ (∃ idx, i = .parse idx) ∨ (∃ k n, i = .config k n)) (h : Effect s i t) :
    SameOutput s t := by
  obtain rfl | ⟨idx, rfl⟩ | ⟨k, n, rfl⟩ := hi <;> cases h <;> exact ⟨rfl, rfl, rfl⟩

theorem exec_sameOutput (hi : i = .encrst ∨ (∃ idx, i = .parse idx) ∨ (∃ k n, i = .config k n))
    (h : exec i s = .next t) : SameOutput s t := by
  obtain ⟨kind, info, rfl, -⟩ | ⟨u, rfl, hu⟩ := exec_next h
  · exact ⟨rfl, rfl, rfl⟩
  · exact { hu.sameOutput hi with }

theorem SameOutput.obufBit (h : SameOutput s t) (hp : t.params = s.params) (n : Nat) : obufBit t n = obufBit s n := by
  simp only [Machine.obufBit, h.obuf, h.obufEra, hp]

end

/-! ### Refusals (R56 to R58, R77, R80, R240) -/

section

variable {s : State} {r : Refusal}

theorem target_error {p : Params} {bytes off : Nat} (h : target p bytes off = .error r) :
    r = .accessWidth ∨ r = .misaligned ∨ r = .reservedOffset := by
  unfold target at h
  split_ifs at h
  · exact .inl (Except.error.inj h).symm
  · exact .inr (.inl (Except.error.inj h).symm)
  · split at h <;> cases h
    exact .inr (.inr rfl)

theorem readLoc_error {l : Loc} (h : readLoc s l = .error r) : r = .writeOnly := by
  cases l <;> cases h
  rfl

theorem writeLoc_error {l : Loc} {v : Word} (h : writeLoc s v l = .error r) : r = .readOnly := by
  cases l <;> cases h <;> rfl

/-- Why a HOST access can be refused (R56 to R58, R240). -/
theorem hostAccess_refused {a : Access} (h : hostAccess a s = .refused r) :
    r ∈ [.accessWidth, .misaligned, .reservedOffset, .busyProtocol, .writeOnly, .readOnly] := by
  cases a with
  | read bytes off =>
    simp only [hostAccess] at h
    split at h
    · rename_i ht
      cases h
      obtain rfl | rfl | rfl := target_error ht <;> decide
    · split_ifs at h
      · cases h
        decide
      · split at h
        · rename_i hv
          cases h
          cases readLoc_error hv
          decide
        · cases h
  | write bytes off v =>
    simp only [hostAccess] at h
    split at h
    · rename_i ht
      cases h
      obtain rfl | rfl | rfl := target_error ht <;> decide
    · split_ifs at h
      · cases h
        decide
      · split at h
        · rename_i hv
          cases h
          cases writeLoc_error hv
          decide
        · cases h

/-- Why a HOST statement can be refused (R57, R77, R80). -/
theorem hostStatement_refused {c : Stmt} (h : hostStatement c s = .refused r) :
    r ∈ [.reservedOffset, .assemblerRefuses, .tooManyPolys, .tooManyBits] := by
  unfold hostStatement at h
  split at h
  · rename_i he
    cases h
    cases c with
    | wait | readbits => cases he
    | wr | rd | polys | loadbits | copyout =>
      simp only [Stmt.expand] at he
      split_ifs at he
      cases he
      decide
    | command c =>
      simp only [Stmt.expand] at he
      split at he <;> cases he
      decide
  · cases h

/-- The CORE's turn is never refused (R220, R243). -/
theorem coreTurn_next (s : State) : ∃ t, coreTurn s = .next t := by
  cases hw : s.inFlight with
  | none => exact ⟨s, coreTurn_idle hw⟩
  | some w =>
    obtain ⟨t, ht, -⟩ := coreTurn_completes hw
    exact ⟨t, ht⟩

theorem coreTurn_ne_refused : coreTurn s ≠ .refused r := by
  obtain ⟨t, ht⟩ := coreTurn_next s
  rw [ht]
  nofun

/-- A refused step is a HOST access or a HOST statement that is refused. -/
theorem step_refused (h : step s = .refused r) :
    (∃ a rest, s.agenda = .access a :: rest ∧ hostAccess a { s with agenda := rest } = .refused r) ∨
    (∃ c rest, s.agenda = .stmt c :: rest ∧ hostStatement c { s with agenda := rest } = .refused r) := by
  unfold step stepTurn at h
  split at h
  · exact absurd h coreTurn_ne_refused
  · rename_i u rest hu
    cases u with
    | core => exact absurd h coreTurn_ne_refused
    | access a => exact .inl ⟨a, rest, hu, h⟩
    | stmt c => exact .inr ⟨c, rest, hu, h⟩
    | reset => cases h

/-! ### A HOST that waits (R240) -/

/-- An access that is not refused goes on: the block has no fault. -/
theorem hostAccess_next_or_refused (a : Access) (s : State) :
    (∃ t, hostAccess a s = .next t) ∨ ∃ r, hostAccess a s = .refused r := by
  cases h : hostAccess a s with
  | next t => exact .inl ⟨t, rfl⟩
  | fault f => cases f
  | refused r => exact .inr ⟨r, rfl⟩

/-- A HOST that waits has no access but the read of STATUS, which alone stands at offset 4. -/
theorem access_of_waiting {a : Access} {t : State} (hw : s.hostWaits = true) (h : hostAccess a s = .next t) :
    a = .read 4 0x004 := by
  obtain ⟨bytes, off, l, v, rfl, ht, -, hl, -⟩ | ⟨_, _, _, -, hfree, -⟩ := hostAccess_next h
  · obtain ⟨rfl, halign, hloc⟩ := target_ok ht
    obtain ⟨-, rfl⟩ := locate_eq_some halign hloc
    rw [hl hw]
    rfl
  · cases hw.symm.trans hfree

/-- The read of STATUS ends the wait exactly if BUSY is 0. -/
theorem hostAccess_status_of_waiting (hw : s.hostWaits = true) :
    hostAccess (.read 4 0x004) s =
      .next { s with hostReads := statusWord s :: s.hostReads, hostWaits := s.busy } := by
  have hnote : noteRead s .status (statusWord s) =
      { s with hostReads := statusWord s :: s.hostReads, hostWaits := s.busy } := by simp [noteRead, hw]
  rw [← hnote]
  exact hostAccess_read_next rfl (fun _ => rfl) rfl

end

end Sys2Proof.Machine
end

section
/-! PROOFS. The statements about reset, the hazards and the BUSY protocol (70_reset_and_hazards.md), from the rules above. -/

namespace Sys2Proof.Machine

/-- Settles O18: a command ends with an error that the block raises, or succeeds with both ERR and ERR_INFO 0. -/
theorem everyCommandCompletes : Obligations.EveryCommandCompletes := by
  unfold Obligations.EveryCommandCompletes
  intro i s
  obtain ⟨kind, info, h, hkind⟩ | ⟨u, h, -⟩ := exec_cases i s
  · exact ⟨_, h, rfl, rfl, .inr (ErrorKind.code_of_raised hkind), fun h0 => absurd h0 kind.code_ne_zero⟩
  · exact ⟨_, h, rfl, rfl, .inl rfl, fun _ => rfl⟩

/-- Settles O21: `step_refused`, and the reasons of the two kinds of HOST turns. -/
theorem onlyHostTurnsAreRefused : Obligations.OnlyHostTurnsAreRefused := by
  unfold Obligations.OnlyHostTurnsAreRefused
  intro s r h
  obtain ⟨a, rest, ha, hr⟩ | ⟨c, rest, hc, hr⟩ := step_refused h
  · exact ⟨fun m hm => by simpa [hm] using hostAccess_refused hr, .inl ⟨a, rest, ha⟩⟩
  · exact ⟨fun m hm => by simpa [hm] using hostStatement_refused hr, .inr ⟨c, rest, hc⟩⟩

/-- Settles O22: `exec_sameInputAndHost` and `exec_sameOutput`. -/
theorem commandsKeepTheirInput : Obligations.CommandsKeepTheirInput := by
  unfold Obligations.CommandsKeepTheirInput
  refine ⟨fun i s t h => ?_, fun i s t h hi => ?_⟩
  · have same := exec_sameInputAndHost h
    exact ⟨same.ilen, same.ibuf, same.ibufByte, same.ibufBit, same.polyRaw, same.params, same.hostWaits,
      same.hostReads, same.agenda⟩
  · have same := exec_sameOutput hi h
    exact ⟨same.olen, same.obuf, same.obufBit (exec_sameInputAndHost h).params⟩

/-- Settles O8: `access_of_waiting`, and the read of STATUS. -/
theorem waitingHostMayOnlyReadStatus : Obligations.WaitingHostMayOnlyReadStatus := by
  unfold Obligations.WaitingHostMayOnlyReadStatus
  refine ⟨fun s a rest hw ha => ?_, fun s rest hw => ?_⟩
  · obtain ⟨t, ht⟩ | hr := hostAccess_next_or_refused a { s with agenda := rest }
    · exact absurd (access_of_waiting (s := { s with agenda := rest }) hw ht) ha
    · exact hr
  · rw [step_access s]
    exact hostAccess_status_of_waiting hw

/-- Settles O11: the reset turn is `State.resetBlock`, which draws both buffers anew. -/
theorem resetTurnGivesTheResetState : Obligations.ResetTurnGivesTheResetState := fun s _ =>
  ⟨_, rfl, rfl, Nat.succ_ne_self s.ibufEra, Nat.succ_ne_self s.obufEra⟩

end Sys2Proof.Machine
end
